-- ==== Sys2Proof/Word.lean ====
section
/-! DEFINITION. The value types of CORE: words, bytes, register ids, immediate fields and access widths (spec/00_scope.md R7, R9). -/

namespace Sys2Proof

/-- A `u32`: a register value, an address or a record value (R7, R9). -/
abbrev Word := BitVec 32

/-- One byte, the addressable unit (R7, R30). -/
abbrev Byte := BitVec 8

/-- A register id: every 5-bit value names a register (R21). -/
abbrev RegId := BitVec 5

/-- The raw 12-bit immediate field, before sign extension (R7, R41). -/
abbrev Imm12 := BitVec 12

/-- The access widths Byte = 1, HalfWord = 2 and Word = 4 bytes (R2, R7). -/
inductive Width where
  | byte
  | half
  | word
  deriving DecidableEq, Repr

end Sys2Proof
end

