-- ==== Sys2Proof/Syntax.lean ====
section
/-! DEFINITION. The decoded operand set on CORE's instruction input port (spec/10_state.md R31, R41) and the eight instructions (spec/00_scope.md R2). -/

namespace Sys2Proof

/-- The instruction input port of R41, one field per signal. `store` is `i_store` (true is 1). The field a
family does not use (`rd` for a store, `rs2` for a load) is present and ignored (R31, R89). -/
structure PortIn where
  store  : Bool
  funct3 : BitVec 3
  rs1    : RegId
  rs2    : RegId
  rd     : RegId
  imm12  : Imm12
  deriving DecidableEq, Repr

/-- The eight instructions, one constructor per row of `spec/opcode_table.json`, each with exactly the
operands its family uses (R31): a load has `rd`, `rs1` and the immediate, a store `rs2`, `rs1` and the immediate,
in the assembler's order (R94). -/
inductive Instr where
  /-- LB, load byte, sign-extended (R143). -/
  | lb  (rd rs1 : RegId) (imm : Imm12)
  /-- LH, load half-word, sign-extended (R144). -/
  | lh  (rd rs1 : RegId) (imm : Imm12)
  /-- LW, load word (R145). -/
  | lw  (rd rs1 : RegId) (imm : Imm12)
  /-- LBU, load byte, zero-extended (R146). -/
  | lbu (rd rs1 : RegId) (imm : Imm12)
  /-- LHU, load half-word, zero-extended (R147). -/
  | lhu (rd rs1 : RegId) (imm : Imm12)
  /-- SB, store byte (R122). -/
  | sb  (rs2 rs1 : RegId) (imm : Imm12)
  /-- SH, store half-word (R123). -/
  | sh  (rs2 rs1 : RegId) (imm : Imm12)
  /-- SW, store word (R124). -/
  | sw  (rs2 rs1 : RegId) (imm : Imm12)
  deriving DecidableEq, Repr

end Sys2Proof
end

