-- ==== Sys2Proof/WellFormed.lean ====
section
/-! DEFINITION. Well-formedness: the eight legal pairs on the instruction port, and the range of an assembler offset. -/

namespace Sys2Proof

/-- The eight legal pairs (`i_store`, `i_funct3`) of R84, in the table's order. -/
def legalPairs : List (Bool × BitVec 3) :=
  [(false, 0b000#3), (false, 0b001#3), (false, 0b010#3), (false, 0b100#3), (false, 0b101#3),
   (true, 0b000#3), (true, 0b001#3), (true, 0b010#3)]

/-- "Only the eight legal pairs of 30_encoding.md rule R84 are ever presented to CORE" (R41). -/
def PortIn.wellFormed (p : PortIn) : Bool :=
  legalPairs.contains (p.store, p.funct3)

/-- The pair that selects an instruction's variant (R84, columns `i_store` and `i_funct3`). -/
def Instr.pair : Instr → Bool × BitVec 3
  | .lb _ _ _  => (false, 0b000#3)
  | .lh _ _ _  => (false, 0b001#3)
  | .lw _ _ _  => (false, 0b010#3)
  | .lbu _ _ _ => (false, 0b100#3)
  | .lhu _ _ _ => (false, 0b101#3)
  | .sb _ _ _  => (true, 0b000#3)
  | .sh _ _ _  => (true, 0b001#3)
  | .sw _ _ _  => (true, 0b010#3)

/-- An instruction is well formed when its pair is legal. Its operands need no check: every 5-bit register id and
every 12-bit immediate is legal in every field (R21, R88), and the types hold nothing else. -/
def Instr.wellFormed (i : Instr) : Bool :=
  legalPairs.contains i.pair

/-- The range of an assembler offset: "a signed decimal or hexadecimal number in -2048..2047" (R94, R87). -/
def offsetInRange (n : Int) : Bool :=
  decide (-2048 ≤ n) && decide (n ≤ 2047)

end Sys2Proof
end

