-- ==== Sys2Proof/Decode.lean ====
section
/-! DEFINITION. The external decoder of spec/30_encoding.md (R80 to R90), CORE's variant selection, and the encoder written from the same tables. -/

namespace Sys2Proof

/-- Why the external decoder gives no operand set (R90, R92). The spec leaves what the loop then does outside
CORE; in this model such a word is refused, which is safe. -/
inductive DecodeError where
  /-- Fewer than the four bytes of an instruction word (R81) are there. -/
  | truncated
  /-- The opcode field is neither LOAD nor STORE (R84). -/
  | opcode (op : BitVec 7)
  /-- The opcode is LOAD or STORE and funct3 is none of the legal ones (R90). -/
  | variant (store : Bool) (funct3 : BitVec 3)
  deriving DecidableEq, Repr

/-- The LOAD major opcode (R82). -/
def opLoad : BitVec 7 := 0b0000011#7

/-- The STORE major opcode (R83). -/
def opStore : BitVec 7 := 0b0100011#7

/-- The opcode field, bits 6:0 of both formats (R82, R83). -/
def fieldOpcode (w : Word) : BitVec 7 := w.extractLsb' 0 7

/-- Bits 11:7: `rd` of an I-type word, `imm[4:0]` of an S-type word (R82, R83). -/
def fieldRd (w : Word) : BitVec 5 := w.extractLsb' 7 5

/-- Bits 14:12 of both formats (R82, R83). -/
def fieldFunct3 (w : Word) : BitVec 3 := w.extractLsb' 12 3

/-- Bits 19:15 of both formats (R82, R83). -/
def fieldRs1 (w : Word) : RegId := w.extractLsb' 15 5

/-- Bits 24:20 of an S-type word (R83). -/
def fieldRs2 (w : Word) : RegId := w.extractLsb' 20 5

/-- The immediate of an I-type word: `w[31:20]` (R86). -/
def fieldImmI (w : Word) : Imm12 := w.extractLsb' 20 12

/-- Bits 31:25 of an S-type word, `imm[11:5]` (R83). -/
def fieldImmHigh (w : Word) : BitVec 7 := w.extractLsb' 25 7

/-- The immediate of an S-type word: the concatenation of `w[31:25]` and `w[11:7]` (R86). -/
def fieldImmS (w : Word) : Imm12 := fieldImmHigh w ++ fieldRd w

/-- The operand set in an I-type word. The unused `rs2` is passed as 0, the spec's own convention (R88, R89). -/
def portOfLoadWord (w : Word) : PortIn :=
  { store := false, funct3 := fieldFunct3 w, rs1 := fieldRs1 w, rs2 := 0#5, rd := fieldRd w, imm12 := fieldImmI w }

/-- The operand set in an S-type word. The unused `rd` is passed as 0 (R88, R89). -/
def portOfStoreWord (w : Word) : PortIn :=
  { store := true, funct3 := fieldFunct3 w, rs1 := fieldRs1 w, rs2 := fieldRs2 w, rd := 0#5, imm12 := fieldImmS w }

/-- Lets an operand set through when its pair is legal (R90). -/
def checkVariant (p : PortIn) : Except DecodeError PortIn :=
  if p.wellFormed then .ok p else .error (.variant p.store p.funct3)

/-- The external decoder: the operand set a word puts on CORE's instruction port (R80 to R90). -/
def decodePort (w : Word) : Except DecodeError PortIn :=
  if fieldOpcode w = opLoad then checkVariant (portOfLoadWord w)
  else if fieldOpcode w = opStore then checkVariant (portOfStoreWord w)
  else .error (.opcode (fieldOpcode w))

/-- CORE's variant selection on its instruction port (R41, R84): the instruction a pair selects, and none for
every other pair (R90). -/
def Instr.ofPort (p : PortIn) : Option Instr :=
  match p.store, p.funct3 with
  | false, 0b000#3 => some (.lb p.rd p.rs1 p.imm12)
  | false, 0b001#3 => some (.lh p.rd p.rs1 p.imm12)
  | false, 0b010#3 => some (.lw p.rd p.rs1 p.imm12)
  | false, 0b100#3 => some (.lbu p.rd p.rs1 p.imm12)
  | false, 0b101#3 => some (.lhu p.rd p.rs1 p.imm12)
  | true, 0b000#3 => some (.sb p.rs2 p.rs1 p.imm12)
  | true, 0b001#3 => some (.sh p.rs2 p.rs1 p.imm12)
  | true, 0b010#3 => some (.sw p.rs2 p.rs1 p.imm12)
  | _, _ => none

/-- The operand set of an instruction on the port, with 0 in the field its family does not use (R89). -/
def Instr.toPort : Instr → PortIn
  | .lb rd rs1 imm  => { store := false, funct3 := 0b000#3, rs1 := rs1, rs2 := 0#5, rd := rd, imm12 := imm }
  | .lh rd rs1 imm  => { store := false, funct3 := 0b001#3, rs1 := rs1, rs2 := 0#5, rd := rd, imm12 := imm }
  | .lw rd rs1 imm  => { store := false, funct3 := 0b010#3, rs1 := rs1, rs2 := 0#5, rd := rd, imm12 := imm }
  | .lbu rd rs1 imm => { store := false, funct3 := 0b100#3, rs1 := rs1, rs2 := 0#5, rd := rd, imm12 := imm }
  | .lhu rd rs1 imm => { store := false, funct3 := 0b101#3, rs1 := rs1, rs2 := 0#5, rd := rd, imm12 := imm }
  | .sb rs2 rs1 imm => { store := true, funct3 := 0b000#3, rs1 := rs1, rs2 := rs2, rd := 0#5, imm12 := imm }
  | .sh rs2 rs1 imm => { store := true, funct3 := 0b001#3, rs1 := rs1, rs2 := rs2, rd := 0#5, imm12 := imm }
  | .sw rs2 rs1 imm => { store := true, funct3 := 0b010#3, rs1 := rs1, rs2 := rs2, rd := 0#5, imm12 := imm }

/-- The instruction a word stands for: the external decoder, then CORE's variant selection. -/
def decodeWord (w : Word) : Except DecodeError Instr :=
  match decodePort w with
  | .error e => .error e
  | .ok p =>
    match Instr.ofPort p with
    | some i => .ok i
    | none => .error (.variant p.store p.funct3)

/-- A word from its four bytes, the lowest address first and low byte first, as a word is stored (R53). PRESUMED
for instruction words, log entry 8. -/
def wordOfBytes (b0 b1 b2 b3 : Byte) : Word := b3 ++ b2 ++ b1 ++ b0

/-- The four bytes of a word, from the lowest address up, low byte first. -/
def bytesOfWord (w : Word) : List Byte :=
  [w.extractLsb' 0 8, w.extractLsb' 8 8, w.extractLsb' 16 8, w.extractLsb' 24 8]

/-- The decoder on bytes: the instruction in the first word, and the bytes after it (R81: one 32-bit word each). -/
def decode : List Byte → Except DecodeError (Instr × List Byte)
  | b0 :: b1 :: b2 :: b3 :: rest =>
    match decodeWord (wordOfBytes b0 b1 b2 b3) with
    | .ok i => .ok (i, rest)
    | .error e => .error e
  | _ => .error .truncated

/-- An I-type word from its fields, msb first (R82). -/
def encodeI (imm : Imm12) (rs1 : RegId) (funct3 : BitVec 3) (rd : RegId) : Word :=
  imm ++ rs1 ++ funct3 ++ rd ++ opLoad

/-- An S-type word from its fields, msb first (R83). -/
def encodeS (imm : Imm12) (rs2 rs1 : RegId) (funct3 : BitVec 3) : Word :=
  imm.extractLsb' 5 7 ++ rs2 ++ rs1 ++ funct3 ++ imm.extractLsb' 0 5 ++ opStore

/-- The word of an instruction (R82 to R84). -/
def encode : Instr → Word
  | .lb rd rs1 imm  => encodeI imm rs1 0b000#3 rd
  | .lh rd rs1 imm  => encodeI imm rs1 0b001#3 rd
  | .lw rd rs1 imm  => encodeI imm rs1 0b010#3 rd
  | .lbu rd rs1 imm => encodeI imm rs1 0b100#3 rd
  | .lhu rd rs1 imm => encodeI imm rs1 0b101#3 rd
  | .sb rs2 rs1 imm => encodeS imm rs2 rs1 0b000#3
  | .sh rs2 rs1 imm => encodeS imm rs2 rs1 0b001#3
  | .sw rs2 rs1 imm => encodeS imm rs2 rs1 0b010#3

/-- The word of which the opcode table gives the low `nbits` bits and whose other bits are 0. -/
def tableWord (nbits w : Nat) : Word := BitVec.ofNat 32 (w % 2 ^ nbits)

/-- The instruction the decoder reads from a word numbered as the opcode table numbers it, laid out as bytes. -/
def decodeTableWord (nbits w : Nat) : Option Instr :=
  match decode (bytesOfWord (tableWord nbits w)) with
  | .ok r => some r.1
  | .error _ => none

end Sys2Proof
end

