-- ==== Sys2Proof/Config.lean ====
section
/-! DEFINITION. The named parameters of a run (spec/00_scope.md R8) and the free values of the model. -/

namespace Sys2Proof

/-- What the external loop hands on next (R182): a decoded operand set for CORE, or a word its own decoder
rejected. "malformed opcodes are rejected earlier, by the external dispatch" (R90), so the second kind never
reaches CORE. -/
inductive Delivery where
  | operands (p : PortIn)
  | malformed (w : Word)
  deriving DecidableEq, Repr

/-- `LOOP_FAULT_POLICY` (R8, R181): what the external loop does with a fault. The spec's `continue` is
`recordAndContinue` here, since `continue` is a word of Lean. -/
inductive FaultPolicy where
  | halt
  | trap
  | recordAndContinue
  deriving DecidableEq, Repr

/-- The parameters fixed for a run (R8): the extent `MEM_LO..MEM_HI`, inclusive, and the loop's fault policy.
`handler` is the loop's own, for the policy `trap`: the transactions its handler presents (R179: "the handler's
memory accesses are ordinary CORE transactions"), DESIGN CHOICE, log entry 6. No instruction reads or writes any
of these as a register (R28); only the bounds check reads the extent (R8, R46). -/
structure Config where
  memLo   : Word
  memHi   : Word
  policy  : FaultPolicy
  handler : List Delivery
  deriving DecidableEq, Repr

/-- The defaults of R8: the whole address space, and `halt`. DESIGN CHOICE as values after reset, log entry 3. -/
def Config.default : Config :=
  { memLo := 0x00000000#32, memHi := 0xFFFFFFFF#32, policy := .halt, handler := [] }

/-- `REG_INIT` (R8, R200), x1 first: the register contents at reset. The spec leaves them open and forbids
taking them as zero (U3, `spec/93_implementation_defined.md`): a free value, with no body. Log entry 1. -/
opaque Config.regInit : Vector Word 31

/-- `MEM_INIT` (R8, R200) as the bytes the loader writes, in its order: the memory contents at reset. The spec
leaves them open and forbids taking them as zero (U4): a free value, with no body. Log entry 2. -/
opaque Config.memInit : List (Word × Byte)

end Sys2Proof
end

