-- ==== Sys2Proof/Machine/Memory.lean ====
section
/-! DEFINITION. The addressable memory as a mapping from 32-bit addresses to bytes (spec/10_state.md R30), held as a list in canonical form, and the byte-level transfers (spec/20_memory.md R59, R60). -/

namespace Sys2Proof.Machine

/-- The memory: the bytes that differ from `Memory.unlisted`, by strictly rising address. Every mapping from the
2^32 addresses to bytes (R30) is exactly one such list. -/
abbrev Memory := List Host.Cell

/-- The number of addresses: 2^32 (R30, R50). -/
def addressSpace : Nat := 4294967296

/-- What an address the list leaves out holds. It is part of how a mapping is written down, not a value the
machine gives unwritten memory: after reset the bytes are `MEM_INIT` (R200). DESIGN CHOICE, log entry 2. -/
def Memory.unlisted : Byte := 0x00#8

/-- The byte at an address: `mem[a]` (R30). -/
def Memory.read : Memory → Nat → Byte
  | [], _ => Memory.unlisted
  | (b, v) :: m, a => if a = b then v else Memory.read m a

/-- `mem[a] <- v`: the canonical list with the byte at `a` replaced, and nothing else (R59). -/
def Memory.write : Memory → Nat → Byte → Memory
  | [], a, v => if v = Memory.unlisted then [] else [(a, v)]
  | (b, w) :: m, a, v =>
    if a < b then (if v = Memory.unlisted then (b, w) :: m else (a, v) :: (b, w) :: m)
    else if a = b then (if v = Memory.unlisted then m else (a, v) :: m)
    else (b, w) :: Memory.write m a v

/-- The canonical form from address `lo` on: addresses rise strictly and lie in the address space, and no entry
holds what an unlisted address holds. -/
def Memory.wfFrom : Nat → Memory → Bool
  | _, [] => true
  | lo, (a, v) :: m =>
    decide (lo ≤ a) && decide (a < addressSpace) && decide (v ≠ Memory.unlisted) && Memory.wfFrom (a + 1) m

/-- The canonical form: equal mappings are equal lists. -/
def Memory.wf (m : Memory) : Bool := Memory.wfFrom 0 m

/-- Byte `k` of a value: `v[8k+7 : 8k]` (R51, R59). -/
def byteOf (v : Word) (k : Nat) : Byte := v.extractLsb' (8 * k) 8

/-- `MemWrite(addr, n, v)` of R59: byte `k` of `v` to `addr + k`, for `k` below `n`. -/
def memWrite (m : Memory) (addr : Nat) : Nat → Word → Memory
  | 0, _ => m
  | n + 1, v => (memWrite m addr n v).write (addr + n) (byteOf v n)

/-- `MemRead(addr, n)` of R60: `mem[addr + k]` at bits `8k+7 : 8k`, for `k` below `n`, and 0 above. -/
def memRead (m : Memory) (addr : Nat) : Nat → Word
  | 0 => 0#32
  | n + 1 => memRead m addr n ||| ((m.read (addr + n)).setWidth 32 <<< (8 * n))

/-- The memory the loader leaves after writing these bytes in order through the host port (R49, R203 step 2). -/
def Memory.ofLoader (image : List (Word × Byte)) : Memory :=
  image.foldl (fun m c => m.write c.1.toNat c.2) []

end Sys2Proof.Machine
end

