-- ==== Sys2Proof/Machine/RegFile.lean ====
section
/-! DEFINITION. The register file: 32 registers of 32 bits, of which register 0 is hardwired to zero and holds no state (spec/10_state.md R20 to R23, R34, R43). -/

namespace Sys2Proof.Machine

/-- The stored registers, x1 first: register 0 holds no state (R34). -/
abbrev RegFile := Vector Word 31

/-- Where register `i`, not 0, stands among the stored ones. -/
theorem regSlot_lt (i : RegId) : i.toNat - 1 < 31 := by
  have := i.isLt
  omega

/-- Register read `x[i]`: "Reading register 0 always yields 0" (R22). -/
def RegFile.read (f : RegFile) (i : RegId) : Word :=
  if i = 0#5 then 0#32 else f[i.toNat - 1]'(regSlot_lt i)

/-- Register write `x[i] <- v`, the file's single write entry point: to register 0 it is accepted and changes
nothing (R23). -/
def RegFile.write (f : RegFile) (i : RegId) (v : Word) : RegFile :=
  if i = 0#5 then f else f.set (i.toNat - 1) v (regSlot_lt i)

/-- The signals of the register file's one write port (R43). -/
structure WritePort where
  we : Bool
  wa : RegId
  wd : Word
  deriving DecidableEq, Repr

/-- The write port at the end of a transaction: "when `we = 1` at commit, `x[wa] <- wd`" (R43). -/
def RegFile.commit (f : RegFile) (p : WritePort) : RegFile :=
  if p.we then f.write p.wa p.wd else f

end Sys2Proof.Machine
end

