-- ==== Sys2Proof/Machine/State.lean ====
section
/-! DEFINITION. The state of CORE with its two ports and the run's parameters, the faults and refusals, and the state after reset (spec/10_state.md, spec/60_exceptions.md R170 to R175, spec/70_reset_and_hazards.md R200). -/

namespace Sys2Proof.Machine

/-- The fault kinds, with the constructor names of R175. A fault is an instruction's terminal outcome, and nothing
of the state has changed (R105, R170). Each is the spec's own, so safe. -/
inductive Fault where
  /-- The checked addition carried out of bit 31. Raised by all eight instructions, with no address (R171). -/
  | addressCalculationOverflow
  /-- Raised by LH, LHU and LW at an effective address that is no multiple of the width (R172). -/
  | unalignedRead (a : Word)
  /-- Raised by SH and SW at an effective address that is no multiple of the width (R172). -/
  | unalignedWrite (a : Word)
  /-- Raised by all eight when a byte of the access lies outside the extent; carries the effective address (R173). -/
  | outOfBounds (a : Word)
  deriving DecidableEq, Repr

/-- Why a step has no meaning. -/
inductive Refusal where
  /-- An instruction of the table without a meaning: raised by no arm of this model. Safe. -/
  | notModelled (mnemonic : String)
  /-- The step's, for an illegal pair on the instruction port: "The model must refuse it" (R90, U6). Safe. -/
  | illegalVariant (store : Bool) (funct3 : BitVec 3)
  /-- The step's, for a word the external decoder rejected: what the loop then does "is outside CORE" (R90). Safe. -/
  | malformedWord (w : Word)
  deriving DecidableEq, Repr

/-- The access record of R106: width, effective address and value. -/
structure Record where
  width   : Width
  address : Word
  value   : Word
  deriving DecidableEq, Repr

/-- The write-back report of R107. -/
inductive Report where
  | noRegisterUpdated
  | updated (register : RegId) (value : Word)
  deriving DecidableEq, Repr

/-- The outcome port of R42, one field per signal; a signal of width 1 is a Bool (true is 1). -/
structure OutPort where
  fault     : Bool
  faultKind : BitVec 3
  faultAddr : Word
  recValid  : Bool
  recWidth  : BitVec 3
  recAddr   : Word
  recValue  : Word
  wbValid   : Bool
  wbReg     : RegId
  wbValue   : Word
  deriving DecidableEq, Repr

/-- The outcome port after reset: "all signals 0 (no fault, no record, no report)" (R200). -/
def OutPort.idle : OutPort :=
  { fault := false, faultKind := 0#3, faultAddr := 0#32, recValid := false, recWidth := 0#3, recAddr := 0#32,
    recValue := 0#32, wbValid := false, wbReg := 0#5, wbValue := 0#32 }

/-- The machine between two transactions. `regs` and `mem` are CORE's architectural state `S` of R34; `out` is the
outcome port (R42); `cfg` holds the run's parameters (R8); `pending` is what the external loop presents next on the
instruction port, first one first (R40, R41, R182), DESIGN CHOICE, log entry 4. CORE has no program counter (R26),
no flag (R27), no control register (R28), no other register file (R29) and no other hidden state (R33), and the
phase and the operand set of an instruction do not outlive its transaction (R31, R32), which is one step (R40). -/
structure State where
  regs    : RegFile
  mem     : Memory
  out     : OutPort
  cfg     : Config
  pending : List Delivery
  deriving DecidableEq, Repr

/-- The state at reset for given launch parameters: `REG_INIT`, `MEM_INIT` and the run's configuration, with no
transaction in progress (R200, R203). -/
def State.launch (cfg : Config) (regInit : RegFile) (memInit : List (Word × Byte)) : State :=
  { regs := regInit, mem := Memory.ofLoader memInit, out := OutPort.idle, cfg := cfg, pending := [] }

/-- The machine right after reset (R200): registers and memory at the free values `REG_INIT` and `MEM_INIT` (log
entries 1 and 2), the configuration at the spec's defaults (log entry 3). -/
def State.reset : State :=
  State.launch Config.default Config.regInit Config.memInit

end Sys2Proof.Machine
end

