-- ==== Sys2Proof/Machine/Operands.lean ====
section
/-! DEFINITION. The operand resolver (spec/40_access_pipeline.md R100), widths and signedness (spec/30_encoding.md R85), and the width adapter (spec/20_memory.md R62, R63). -/

namespace Sys2Proof.Machine

/-- The number of bytes of a width (R7). -/
def widthBytes : Width → Nat
  | .byte => 1
  | .half => 2
  | .word => 4

/-- The width that `i_funct3[1:0]` selects (R85); 0b11 selects none. -/
def widthOfFunct3 (funct3 : BitVec 3) : Option Width :=
  match funct3.extractLsb' 0 2 with
  | 0b00#2 => some .byte
  | 0b01#2 => some .half
  | 0b10#2 => some .word
  | _ => none

/-- `signed = (i_funct3[2] == 0)` (R85). -/
def signedOfFunct3 (funct3 : BitVec 3) : Bool := !funct3.getLsbD 2

/-- `imm32 = sext_32(imm12)`: "bit 11 of the raw field determines the sign" (R86, R100). -/
def immediate (imm12 : Imm12) : Word := imm12.signExtend 32

/-- Whether the instruction is of the store family (R2). -/
def isStore : Instr → Bool
  | .lb _ _ _ | .lh _ _ _ | .lw _ _ _ | .lbu _ _ _ | .lhu _ _ _ => false
  | .sb _ _ _ | .sh _ _ _ | .sw _ _ _ => true

/-- The access width of an instruction (R2). -/
def width : Instr → Width
  | .lb _ _ _ | .lbu _ _ _ | .sb _ _ _ => .byte
  | .lh _ _ _ | .lhu _ _ _ | .sh _ _ _ => .half
  | .lw _ _ _ | .sw _ _ _ => .word

/-- Whether a load extends by the sign (R2); LW needs no signedness (R63), and a store has none. -/
def signed : Instr → Bool
  | .lb _ _ _ | .lh _ _ _ => true
  | .lw _ _ _ | .lbu _ _ _ | .lhu _ _ _ | .sb _ _ _ | .sh _ _ _ | .sw _ _ _ => false

/-- The base register of an instruction (R31). -/
def baseReg : Instr → RegId
  | .lb _ rs1 _ | .lh _ rs1 _ | .lw _ rs1 _ | .lbu _ rs1 _ | .lhu _ rs1 _ => rs1
  | .sb _ rs1 _ | .sh _ rs1 _ | .sw _ rs1 _ => rs1

/-- The raw immediate field of an instruction (R31). -/
def rawImm : Instr → Imm12
  | .lb _ _ imm | .lh _ _ imm | .lw _ _ imm | .lbu _ _ imm | .lhu _ _ imm => imm
  | .sb _ _ imm | .sh _ _ imm | .sw _ _ imm => imm

/-- The register a load writes; a store has none (R31). -/
def destReg : Instr → Option RegId
  | .lb rd _ _ | .lh rd _ _ | .lw rd _ _ | .lbu rd _ _ | .lhu rd _ _ => some rd
  | .sb _ _ _ | .sh _ _ _ | .sw _ _ _ => none

/-- The register a store takes its datum from; a load reads none (R31, R100). -/
def dataReg : Instr → Option RegId
  | .lb _ _ _ | .lh _ _ _ | .lw _ _ _ | .lbu _ _ _ | .lhu _ _ _ => none
  | .sb rs2 _ _ | .sh rs2 _ _ | .sw rs2 _ _ => some rs2

/-- The width adapter's store direction: `zext_32(trunc_8W(v))`, "never an error" (R62). -/
def storeAdapter (W : Width) (v : Word) : Word :=
  match W with
  | .byte => (v.setWidth 8).setWidth 32
  | .half => (v.setWidth 16).setWidth 32
  | .word => v

/-- The width adapter's load direction: the raw value's low `8W` bits sign-extended, or the raw value (R63). -/
def loadAdapter (W : Width) (sign : Bool) (raw : Word) : Word :=
  if sign then
    match W with
    | .byte => (raw.setWidth 8).signExtend 32
    | .half => (raw.setWidth 16).signExtend 32
    | .word => raw
  else raw

end Sys2Proof.Machine
end

