-- ==== Sys2Proof/Machine/Flags.lean ====
section
/-! DEFINITION. CORE has no flag or condition code (spec/10_state.md R27, spec/40_access_pipeline.md R110). What stands in a flag's place are the condition signals of its three checkers, which become faults and are kept nowhere: `ovf`, `misaligned` and `oob` (spec/10_state.md R44 to R46). -/

namespace Sys2Proof.Machine

/-- `sum33 = zext_33(base) + zext_33(off)`, the 33-bit exact sum (R54). -/
def sum33 (base off : Word) : BitVec 33 := base.setWidth 33 + off.setWidth 33

/-- The adder's output `ovf`: the carry out of bit 31 (R44, R54). -/
def adderOvf (base off : Word) : Bool := (sum33 base off).getLsbD 32

/-- The adder's output `ea`: `sum33[31:0]`, never used when `ovf` is 1 (R44, R54). -/
def adderEa (base off : Word) : Word := (sum33 base off).setWidth 32

/-- The alignment checker (R45, R56). -/
def misaligned (a : Word) (W : Width) : Bool :=
  match W with
  | .byte => false
  | .half => a.getLsbD 0
  | .word => decide (a.extractLsb' 0 2 ≠ 0b00#2)

/-- `InExtent(ea, W)` in exact arithmetic: every byte of the access lies in `MEM_LO..MEM_HI` (R57, R120). -/
def inExtent (cfg : Config) (a : Word) (W : Width) : Bool :=
  decide (cfg.memLo.toNat ≤ a.toNat) && decide (a.toNat + widthBytes W - 1 ≤ cfg.memHi.toNat)

/-- The bounds checker (R46, R57). -/
def oob (cfg : Config) (a : Word) (W : Width) : Bool := !inExtent cfg a W

end Sys2Proof.Machine
end

