-- ==== Sys2Proof/Machine/Ops.lean ====
section
/-! DEFINITION. The operations the instructions share: the effective address, the memory interface, the phases of a transaction, its outcome on the port, and what becomes of a fault (spec/20_memory.md R54, R64 to R66, spec/40_access_pipeline.md, spec/60_exceptions.md). -/

namespace Sys2Proof.Machine

/-- How a step ends. -/
abbrev Outcome := Host.Outcome State Fault Refusal

/-- Replaces the register file. -/
def State.setRegs (s : State) (f : RegFile) : State := { s with regs := f }

/-- Replaces the memory. -/
def State.setMem (s : State) (m : Memory) : State := { s with mem := m }

/-- Drives the outcome port. -/
def State.setOut (s : State) (o : OutPort) : State := { s with out := o }

/-- Replaces what the external loop presents next. -/
def State.setPending (s : State) (q : List Delivery) : State := { s with pending := q }

/-- Check (1) of R66, the effective-address adder: a carry out faults, and the wrapped sum is never used (R54). -/
def effectiveAddress (base off : Word) : Except Fault Word :=
  if adderOvf base off then .error .addressCalculationOverflow else .ok (adderEa base off)

/-- The memory interface's `write(ea, W, v)` (R48, R64): alignment, then bounds, then the transfer. -/
def memoryWrite (cfg : Config) (m : Memory) (a : Word) (W : Width) (v : Word) : Except Fault (Record × Memory) :=
  if misaligned a W then .error (.unalignedWrite a)
  else if oob cfg a W then .error (.outOfBounds a)
  else
    .ok ({ width := W, address := a, value := storeAdapter W v },
      memWrite m a.toNat (widthBytes W) (storeAdapter W v))

/-- The memory interface's `read(ea, W)` (R48, R65): alignment, then bounds, then the raw assembled value. -/
def memoryRead (cfg : Config) (m : Memory) (a : Word) (W : Width) : Except Fault Word :=
  if misaligned a W then .error (.unalignedRead a)
  else if oob cfg a W then .error (.outOfBounds a)
  else .ok (memRead m a.toNat (widthBytes W))

/-- One instruction in flight: its family, its access width and signedness, and its operand set, "created per
executed instruction and discarded after write-back" (R31). -/
structure Access where
  store  : Bool
  width  : Width
  signed : Bool
  rs1    : RegId
  rs2    : RegId
  rd     : RegId
  imm12  : Imm12
  deriving DecidableEq, Repr

/-- The phases of a transaction (R32). -/
inductive Phase where
  | decoded
  | memoryWritten
  | memoryRead
  | writtenBack
  deriving DecidableEq, Repr

/-- An instruction past its memory transition, with what it carries to write-back (R103, R104). -/
inductive Accessed where
  | written (record : Record) (mem : Memory)
  | loaded (record : Record)
  deriving DecidableEq, Repr

/-- The phase an instruction past its memory transition is in (R32). -/
def Accessed.phase : Accessed → Phase
  | .written _ _ => .memoryWritten
  | .loaded _ => .memoryRead

/-- The transition out of `Decoded`, the only one that can fail (R32, R103, R104): read port A gives `rs1` and, for a
store, read port B gives `rs2`, both from the snapshot `s` (R25, R43, R100); the address is computed and the memory
interface called, in the order of R66. -/
def memoryTransition (a : Access) (s : State) : Except Fault Accessed :=
  match effectiveAddress (s.regs.read a.rs1) (immediate a.imm12) with
  | .error f => .error f
  | .ok addr =>
    if a.store then
      match memoryWrite s.cfg s.mem addr a.width (s.regs.read a.rs2) with
      | .error f => .error f
      | .ok r => .ok (.written r.1 r.2)
    else
      match memoryRead s.cfg s.mem addr a.width with
      | .error f => .error f
      | .ok raw => .ok (.loaded { width := a.width, address := addr, value := loadAdapter a.width a.signed raw })

/-- The register write port during write-back: a store leaves it idle, a load writes `rd` (R43, R103, R104, R108). -/
def writeBackPort (rd : RegId) : Accessed → WritePort
  | .written _ _ => { we := false, wa := 0#5, wd := 0#32 }
  | .loaded r => { we := true, wa := rd, wd := r.value }

/-- The memory an instruction commits: a store's, or the one it found (R67). -/
def Accessed.memory (old : Memory) : Accessed → Memory
  | .written _ m => m
  | .loaded _ => old

/-- The access record of a successful instruction (R106). -/
def Accessed.record : Accessed → Record
  | .written r _ => r
  | .loaded r => r

/-- The write-back report (R107): a register only for a load whose `rd` is not 0. -/
def writeBackReport (rd : RegId) : Accessed → Report
  | .written _ _ => .noRegisterUpdated
  | .loaded r => if rd = 0#5 then .noRegisterUpdated else .updated rd r.value

/-- The outcome port of `Ok(record, report)` (R42, R106, R107). -/
def OutPort.ok (r : Record) (p : Report) : OutPort :=
  { fault := false, faultKind := 0#3, faultAddr := 0#32,
    recValid := true, recWidth := BitVec.ofNat 3 (widthBytes r.width), recAddr := r.address, recValue := r.value,
    wbValid := match p with | .noRegisterUpdated => false | .updated _ _ => true
    wbReg := match p with | .noRegisterUpdated => 0#5 | .updated i _ => i
    wbValue := match p with | .noRegisterUpdated => 0#32 | .updated _ v => v }

/-- The transition to `WrittenBack`, which cannot fail: everything commits together (R102, R103, R104). -/
def writeBack (a : Access) (s : State) (g : Accessed) : State :=
  ((s.setRegs (s.regs.commit (writeBackPort a.rd g))).setMem (g.memory s.mem)).setOut
    (OutPort.ok g.record (writeBackReport a.rd g))

/-- One transaction (R40, R102): it ends in `WrittenBack`, or with one fault and nothing changed (R105). -/
def transact (a : Access) (s : State) : Outcome :=
  match memoryTransition a s with
  | .error f => .fault f
  | .ok g => .next (writeBack a s g)

/-- The phases a transaction goes through: a fault leaves it in `Decoded` (R32). -/
def phases (a : Access) (s : State) : List Phase :=
  match memoryTransition a s with
  | .error _ => [.decoded]
  | .ok g => [.decoded, g.phase, .writtenBack]

/-- `Store(W)` of R120. The `rd` field is not used (R31). -/
def store (W : Width) (rs2 rs1 : RegId) (imm12 : Imm12) (s : State) : Outcome :=
  transact { store := true, width := W, signed := false, rs1 := rs1, rs2 := rs2, rd := 0#5, imm12 := imm12 } s

/-- `Load(W, signed)` of R140. The `rs2` field is not used (R31). -/
def load (W : Width) (sign : Bool) (rd rs1 : RegId) (imm12 : Imm12) (s : State) : Outcome :=
  transact { store := false, width := W, signed := sign, rs1 := rs1, rs2 := 0#5, rd := rd, imm12 := imm12 } s

/-- The fault code of R175. -/
def Fault.code : Fault → BitVec 3
  | .addressCalculationOverflow => 1#3
  | .unalignedRead _ => 2#3
  | .unalignedWrite _ => 3#3
  | .outOfBounds _ => 4#3

/-- The address on the port: the effective address, or 0 for the overflow, which carries none (R171, R175). -/
def Fault.addr : Fault → Word
  | .addressCalculationOverflow => 0#32
  | .unalignedRead a => a
  | .unalignedWrite a => a
  | .outOfBounds a => a

/-- What a consumer of the port makes of a code and an address: it must refuse the codes 5 to 7, which are never
produced (R175, U11); code 0 is no fault. -/
def Fault.ofCode (kind : BitVec 3) (a : Word) : Option Fault :=
  match kind with
  | 1#3 => some .addressCalculationOverflow
  | 2#3 => some (.unalignedRead a)
  | 3#3 => some (.unalignedWrite a)
  | 4#3 => some (.outOfBounds a)
  | _ => none

/-- The outcome port of `Fault(f)`: "`o_rec_*` and `o_wb_*` are all 0" (R42, R175, R178). -/
def OutPort.faulted (f : Fault) : OutPort :=
  { fault := true, faultKind := f.code, faultAddr := f.addr, recValid := false, recWidth := 0#3, recAddr := 0#32,
    recValue := 0#32, wbValid := false, wbReg := 0#5, wbValue := 0#32 }

/-- What becomes of a fault, the one operation for it. CORE has no trap entry: it saves nothing, jumps nowhere and
puts the kind and the address on its outcome port (R178); the external loop then follows `LOOP_FAULT_POLICY` (R181).
`halt` stops the run, `recordAndContinue` goes on with the next instruction, `trap` goes on with the loop's handler
(log entry 6). -/
def receiveFault (s : State) (f : Fault) : Outcome :=
  match s.cfg.policy with
  | .halt => .fault f
  | .recordAndContinue => .next (s.setOut (OutPort.faulted f))
  | .trap => .next ((s.setOut (OutPort.faulted f)).setPending s.cfg.handler)

end Sys2Proof.Machine
end

