-- ==== Sys2Proof/Machine/Loads.lean ====
section
/-! DEFINITION. The load instructions LB, LH, LW, LBU and LHU (spec/42_loads.md). The spec marks the family as inferred from its document, with no code or run behind it (U8, log entry 9). -/

namespace Sys2Proof.Machine

/-- LB: `Load(1, signed)` (R143). -/
def execLb (rd rs1 : RegId) (imm : Imm12) (s : State) : Outcome := load .byte true rd rs1 imm s

/-- LH: `Load(2, signed)` (R144). -/
def execLh (rd rs1 : RegId) (imm : Imm12) (s : State) : Outcome := load .half true rd rs1 imm s

/-- LW: `Load(4, -)`, to which extension does not apply (R145). -/
def execLw (rd rs1 : RegId) (imm : Imm12) (s : State) : Outcome := load .word false rd rs1 imm s

/-- LBU: `Load(1, unsigned)` (R146). -/
def execLbu (rd rs1 : RegId) (imm : Imm12) (s : State) : Outcome := load .byte false rd rs1 imm s

/-- LHU: `Load(2, unsigned)` (R147). -/
def execLhu (rd rs1 : RegId) (imm : Imm12) (s : State) : Outcome := load .half false rd rs1 imm s

end Sys2Proof.Machine
end

