-- ==== Sys2Proof/Machine/Stores.lean ====
section
/-! DEFINITION. The store instructions SB, SH and SW (spec/41_stores.md). -/

namespace Sys2Proof.Machine

/-- SB: `Store(1)` (R122). -/
def execSb (rs2 rs1 : RegId) (imm : Imm12) (s : State) : Outcome := store .byte rs2 rs1 imm s

/-- SH: `Store(2)` (R123). -/
def execSh (rs2 rs1 : RegId) (imm : Imm12) (s : State) : Outcome := store .half rs2 rs1 imm s

/-- SW: `Store(4)` (R124). -/
def execSw (rs2 rs1 : RegId) (imm : Imm12) (s : State) : Outcome := store .word rs2 rs1 imm s

end Sys2Proof.Machine
end

