-- ==== Sys2Proof/Machine/Loop.lean ====
section
/-! DEFINITION. The external loop's side of the interface: presenting one instruction, and receiving its outcome (spec/60_exceptions.md R181, R182). -/

namespace Sys2Proof.Machine

/-- What the loop hands on for a fetched instruction word: its operand set, or the word as malformed (R80, R90). -/
def deliveryOfWord (w : Word) : Delivery :=
  match decodePort w with
  | .ok p => .operands p
  | .error _ => .malformed w

/-- One instruction presented on the port, in the state in which it is no longer pending: its transaction, and what
the loop does with its outcome. An illegal pair and a malformed word are refused (R90). -/
def present (d : Delivery) (s : State) : Outcome :=
  match d with
  | .malformed w => .refused (.malformedWord w)
  | .operands p =>
    match Instr.ofPort p with
    | none => .refused (.illegalVariant p.store p.funct3)
    | some i =>
      match exec i s with
      | .next t => .next t
      | .fault f => receiveFault s f
      | .refused r => .refused r

/-- One step of the machine: one transaction (R40), with the instruction the loop presents first. With none
presented CORE "is idle and keeps its state" (R188). -/
def runNext (s : State) : Outcome :=
  match s.pending with
  | [] => .next s
  | d :: rest => present d (s.setPending rest)

end Sys2Proof.Machine
end

