-- ==== Sys2Proof/Machine/Step.lean ====
section
/-! DEFINITION. The step, and placing one instruction word as the next one the step runs. -/

namespace Sys2Proof.Machine

/-- One step: one transaction of CORE (R40). -/
def step (s : State) : Host.Outcome State Fault Refusal := runNext s

/-- The state with the instruction word `w`, numbered as the opcode table numbers it, as the one the loop presents
next, in the place of the one it would have presented. CORE fetches nothing (R26, R201): log entry 4 says how a
program comes to run. -/
def State.withFetchWord (s : State) (nbits w : Nat) : State :=
  s.setPending (deliveryOfWord (tableWord nbits w) :: s.pending.drop 1)

end Sys2Proof.Machine
end

