-- ==== Sys2Proof/Machine/Asm.lean ====
section
/-! DEFINITION. The assembler's text of an instruction: register names, syntax and pseudo-instructions (spec/30_encoding.md R93 to R95). Text only: nothing the machine does depends on it. -/

namespace Sys2Proof.Machine

/-- The assembler names of the registers by id: `x<id>` and the ABI aliases (R93). -/
def regNames : List (List String) :=
  [["x0", "zero"], ["x1", "ra"], ["x2", "sp"], ["x3", "gp"], ["x4", "tp"], ["x5", "t0"], ["x6", "t1"], ["x7", "t2"]] ++
  [["x8", "s0", "fp"], ["x9", "s1"], ["x10", "a0"], ["x11", "a1"], ["x12", "a2"], ["x13", "a3"], ["x14", "a4"],
   ["x15", "a5"]] ++
  [["x16", "a6"], ["x17", "a7"], ["x18", "s2"], ["x19", "s3"], ["x20", "s4"], ["x21", "s5"], ["x22", "s6"],
   ["x23", "s7"]] ++
  [["x24", "s8"], ["x25", "s9"], ["x26", "s10"], ["x27", "s11"], ["x28", "t3"], ["x29", "t4"], ["x30", "t5"],
   ["x31", "t6"]]

/-- The register id an assembler name stands for, if any (R93). -/
def regOfName (name : String) : Option RegId :=
  (regNames.findIdx? (fun names => names.contains name)).map (BitVec.ofNat 5)

/-- The first name of a register, `x<id>` (R93). -/
def regName (i : RegId) : String := ((regNames.getD i.toNat []).headD "")

/-- The immediate field of an assembler offset in -2048..2047; any other offset has none (R94). -/
def immOfOffset (n : Int) : Option Imm12 :=
  if offsetInRange n then some (BitVec.ofInt 12 n) else none

/-- `imm(rs1)` with the offset as a signed decimal number (R94). -/
def addressText (rs1 : RegId) (imm : Imm12) : String :=
  toString imm.toInt ++ "(" ++ regName rs1 ++ ")"

/-- The assembler's text of an instruction (R94). -/
def asmText : Instr → String
  | .lb rd rs1 imm  => "lb " ++ regName rd ++ ", " ++ addressText rs1 imm
  | .lh rd rs1 imm  => "lh " ++ regName rd ++ ", " ++ addressText rs1 imm
  | .lw rd rs1 imm  => "lw " ++ regName rd ++ ", " ++ addressText rs1 imm
  | .lbu rd rs1 imm => "lbu " ++ regName rd ++ ", " ++ addressText rs1 imm
  | .lhu rd rs1 imm => "lhu " ++ regName rd ++ ", " ++ addressText rs1 imm
  | .sb rs2 rs1 imm => "sb " ++ regName rs2 ++ ", " ++ addressText rs1 imm
  | .sh rs2 rs1 imm => "sh " ++ regName rs2 ++ ", " ++ addressText rs1 imm
  | .sw rs2 rs1 imm => "sw " ++ regName rs2 ++ ", " ++ addressText rs1 imm

/-- The one instruction of a load pseudo-instruction that CORE executes, `l.. rd, %pcrel_lo(L)(rd)`; the `auipc`
before it is outside CORE (R95). `mk` is the load's constructor. -/
def pseudoLoadPart (mk : RegId → RegId → Imm12 → Instr) (rd : RegId) (pcrelLo : Imm12) : Instr := mk rd rd pcrelLo

/-- The one instruction of a store pseudo-instruction that CORE executes, `s.. rs2, %pcrel_lo(L)(rt)` (R95). -/
def pseudoStorePart (mk : RegId → RegId → Imm12 → Instr) (rs2 rt : RegId) (pcrelLo : Imm12) : Instr := mk rs2 rt pcrelLo

end Sys2Proof.Machine
end

