-- ==== Sys2Proof/Machine/HostPort.lean ====
section
/-! DEFINITION. The host port, by which the program loader and the observer reach the state between transactions (spec/10_state.md R49, spec/70_reset_and_hazards.md R203). -/

namespace Sys2Proof.Machine

/-- `h_reg_write(id, value)`: "a write to register 0 has no effect" (R49). -/
def hostRegWrite (i : RegId) (v : Word) (s : State) : State := s.setRegs (s.regs.write i v)

/-- `h_reg_read(id)` (R49). -/
def hostRegRead (i : RegId) (s : State) : Word := s.regs.read i

/-- `h_mem_write(addr, byte)`: sets `mem[addr]`, with no check and no record (R49). -/
def hostMemWrite (a : Word) (b : Byte) (s : State) : State := s.setMem (s.mem.write a.toNat b)

/-- `h_mem_read(addr)` (R49). -/
def hostMemRead (a : Word) (s : State) : Byte := s.mem.read a.toNat

end Sys2Proof.Machine
end

