-- ==== Sys2Proof/Machine/Pipeline.lean ====
section
/-! DEFINITION. The generic pipeline on the instruction port, line by line as spec/40_access_pipeline.md R102 writes it. The meanings of the eight instructions are the same pipeline through its phases; that the two agree is an obligation. -/

namespace Sys2Proof.Machine

/-- `Execute(cfg, S, instr)` of R102; an illegal pair is refused (R90). -/
def execute (p : PortIn) (s : State) : Outcome :=
  if p.wellFormed then
    match widthOfFunct3 p.funct3 with
    | none => .refused (.illegalVariant p.store p.funct3)
    | some W =>
      let base := s.regs.read p.rs1
      let imm32 := immediate p.imm12
      let sum := base.setWidth 33 + imm32.setWidth 33
      if sum.getLsbD 32 then .fault .addressCalculationOverflow
      else
        let addr := sum.setWidth 32
        if p.store then
          let data := s.regs.read p.rs2
          match memoryWrite s.cfg s.mem addr W data with
          | .error f => .fault f
          | .ok (r, m) => .next { s with mem := m, out := OutPort.ok r .noRegisterUpdated }
        else
          match memoryRead s.cfg s.mem addr W with
          | .error f => .fault f
          | .ok raw =>
            let v := loadAdapter W (signedOfFunct3 p.funct3) raw
            let r : Record := { width := W, address := addr, value := v }
            let report := if p.rd ≠ 0#5 then Report.updated p.rd v else .noRegisterUpdated
            .next { s with regs := s.regs.write p.rd v, out := OutPort.ok r report }
  else .refused (.illegalVariant p.store p.funct3)

end Sys2Proof.Machine
end

