-- ==== Sys2Proof/Safety.lean ====
section
/-! DEFINITION. The terms the claims use: the exact address of an access and when it is allowed, the value a load gives, the outcome port of a success, and the invariant of the machine. -/

namespace Sys2Proof.Machine

/-- The exact sum of an access, in unbounded arithmetic: the base register and the sign-extended immediate, both
read as unsigned 32-bit numbers (R54). It is the effective address when it is below 2^32. -/
def exactSum (s : State) (rs1 : RegId) (imm : Imm12) : Nat :=
  (s.regs.read rs1).toNat + (imm.signExtend 32).toNat

/-- The access passes the three checks of R66 in exact arithmetic: no carry out (R54), a multiple of the width (R56),
and wholly inside the extent (R57). `n` is the width in bytes. -/
abbrev accessOk (s : State) (rs1 : RegId) (imm : Imm12) (n : Nat) : Prop :=
  exactSum s rs1 imm < addressSpace ∧ exactSum s rs1 imm % n = 0 ∧
    s.cfg.memLo.toNat ≤ exactSum s rs1 imm ∧ exactSum s rs1 imm + n - 1 ≤ s.cfg.memHi.toNat

/-- The outcome port after a load of `n` bytes at `a` that gave `v`: the record, and the report of `rd` unless it is
register 0 (R42, R106, R107). -/
def loadPort (n : BitVec 3) (a : Nat) (rd : RegId) (v : Word) : OutPort :=
  { fault := false, faultKind := 0#3, faultAddr := 0#32, recValid := true, recWidth := n,
    recAddr := BitVec.ofNat 32 a, recValue := v,
    wbValid := decide (rd ≠ 0#5), wbReg := rd, wbValue := if rd = 0#5 then 0#32 else v }

/-- The outcome port after a store of `n` bytes at `a` with the truncated datum `v`: the record, and "no register
updated" (R42, R106, R107). -/
def storePort (n : BitVec 3) (a : Nat) (v : Word) : OutPort :=
  { fault := false, faultKind := 0#3, faultAddr := 0#32, recValid := true, recWidth := n,
    recAddr := BitVec.ofNat 32 a, recValue := v, wbValid := false, wbReg := 0#5, wbValue := 0#32 }

/-- The transaction an instruction is: its family, width, signedness and operands (R31), with 0 in the field its
family does not use. -/
def accessOf (i : Instr) : Access :=
  { store := isStore i, width := width i, signed := signed i, rs1 := baseReg i, rs2 := (dataReg i).getD 0#5,
    rd := (destReg i).getD 0#5, imm12 := rawImm i }

/-- What R42 and R175 say of every outcome the port can show: with no fault the kind and the address are 0; with a
fault the kind is 1 to 4, the overflow carries no address, and there is no record and no report; without a record
or a report its signals are 0; a record has a width of 1, 2 or 4; a report never names register 0 and repeats the
record's value, and comes with a record. -/
abbrev OutPort.consistent (o : OutPort) : Prop :=
  (o.fault = false → o.faultKind = 0#3 ∧ o.faultAddr = 0#32) ∧
  (o.fault = true → (o.faultKind = 1#3 ∧ o.faultAddr = 0#32 ∨ o.faultKind = 2#3 ∨ o.faultKind = 3#3 ∨ o.faultKind = 4#3) ∧
    o.recValid = false) ∧
  (o.recValid = false → o.recWidth = 0#3 ∧ o.recAddr = 0#32 ∧ o.recValue = 0#32 ∧ o.wbValid = false) ∧
  (o.recValid = true → o.recWidth = 1#3 ∨ o.recWidth = 2#3 ∨ o.recWidth = 4#3) ∧
  (o.wbValid = false → o.wbReg = 0#5 ∧ o.wbValue = 0#32) ∧
  (o.wbValid = true → o.wbReg ≠ 0#5 ∧ o.wbValue = o.recValue)

/-- The invariant of the machine: the memory is in its canonical form, and the outcome port shows an outcome the
spec allows. -/
abbrev State.Inv (s : State) : Prop := s.mem.wf = true ∧ s.out.consistent

/-- Two states that agree on everything but the bytes outside the addressable extent, which "are still state, but no
instruction reads or writes them" (R30). -/
def agreeInExtent (s t : State) : Prop :=
  s.regs = t.regs ∧ s.out = t.out ∧ s.cfg = t.cfg ∧ s.pending = t.pending ∧
    ∀ a, s.cfg.memLo.toNat ≤ a → a ≤ s.cfg.memHi.toNat → s.mem.read a = t.mem.read a

end Sys2Proof.Machine
end

