-- ==== Sys2Proof/Certificates/Slice0/Obligations.lean ====
section
/-! DEFINITION. The statements about the model, from the numbered rules of spec/. -/

open Sys2Proof Sys2Proof.Machine

/-! ### Encoding -/

/-- Every instruction, with every operand at every value the encoding admits, is read back from its word's bytes, and
the bytes after it are left. From the layouts of R82, R83 and the table of R84; the byte order of an instruction
word is the model's (log entry 8). -/
def Obligations.DecodeInvertsEncode : Prop :=
  ∀ (i : Instr) (rest : List Byte), decode (bytesOfWord (encode i) ++ rest) = .ok (i, rest)

/-- A word the decoder accepts is the encoding of the instruction it gives: no bit of the word is dropped, and no
two words stand for one instruction (R84: "Every other bit is an operand field"). -/
def Obligations.EncodeInvertsDecode : Prop :=
  ∀ (w : Word) (i : Instr), decodeWord w = .ok i → encode i = w

/-- The table of R84 with the layouts of R82 and R83: a word is a row's instruction exactly when it matches the row
under the mask, its operands stand at the format's bits, and the pair on CORE's port is the row's. -/
def Obligations.TableRowsSelectVariants : Prop :=
  ∀ w : Word,
    let rd : RegId := w.extractLsb' 7 5
    let rs1 : RegId := w.extractLsb' 15 5
    let rs2 : RegId := w.extractLsb' 20 5
    let immI : Imm12 := w.extractLsb' 20 12
    let immS : Imm12 := w.extractLsb' 25 7 ++ w.extractLsb' 7 5
    let row (m : Word) : Prop := w &&& 0x0000707F#32 = m
    let port (st : Bool) (f : BitVec 3) : Prop := ∃ p, decodePort w = .ok p ∧ p.store = st ∧ p.funct3 = f
    (row 0x00000003#32 ↔ decodeWord w = .ok (.lb rd rs1 immI)) ∧ (row 0x00000003#32 → port false 0b000#3) ∧
    (row 0x00001003#32 ↔ decodeWord w = .ok (.lh rd rs1 immI)) ∧ (row 0x00001003#32 → port false 0b001#3) ∧
    (row 0x00002003#32 ↔ decodeWord w = .ok (.lw rd rs1 immI)) ∧ (row 0x00002003#32 → port false 0b010#3) ∧
    (row 0x00004003#32 ↔ decodeWord w = .ok (.lbu rd rs1 immI)) ∧ (row 0x00004003#32 → port false 0b100#3) ∧
    (row 0x00005003#32 ↔ decodeWord w = .ok (.lhu rd rs1 immI)) ∧ (row 0x00005003#32 → port false 0b101#3) ∧
    (row 0x00000023#32 ↔ decodeWord w = .ok (.sb rs2 rs1 immS)) ∧ (row 0x00000023#32 → port true 0b000#3) ∧
    (row 0x00001023#32 ↔ decodeWord w = .ok (.sh rs2 rs1 immS)) ∧ (row 0x00001023#32 → port true 0b001#3) ∧
    (row 0x00002023#32 ↔ decodeWord w = .ok (.sw rs2 rs1 immS)) ∧ (row 0x00002023#32 → port true 0b010#3)

/-- The worked encoding of R96: the assembler's text, the word, and what CORE receives. -/
def Obligations.WorkedEncodingOfStoreHalf : Prop :=
  asmText (.sh 2#5 1#5 0x002#12) = "sh x2, 2(x1)" ∧
  encode (.sh 2#5 1#5 0x002#12) = 0x00209123#32 ∧
  (0x00209123#32 : Word) = 0b0000000#7 ++ 0b00010#5 ++ 0b00001#5 ++ 0b001#3 ++ 0b00010#5 ++ 0b0100011#7 ∧
  ∃ p, decodePort 0x00209123#32 = .ok p ∧ p.store = true ∧ p.funct3 = 0b001#3 ∧ p.rs1 = 1#5 ∧ p.rs2 = 2#5 ∧
    p.imm12 = 0x002#12

/-- Words of each family, with positive and negative offsets, written out in the spec's test vectors (95 §2.6, §2.7). -/
def Obligations.VectorWordsDecode : Prop :=
  decodeTableWord 32 0x00008183 = some (.lb 3#5 1#5 0x000#12) ∧
  decodeTableWord 32 0x80000183 = some (.lb 3#5 0#5 0x800#12) ∧
  decodeTableWord 32 0x00209183 = some (.lh 3#5 1#5 0x002#12) ∧
  decodeTableWord 32 0xFFC0A183 = some (.lw 3#5 1#5 0xFFC#12) ∧
  decodeTableWord 32 0x0010C183 = some (.lbu 3#5 1#5 0x001#12) ∧
  decodeTableWord 32 0x0030D183 = some (.lhu 3#5 1#5 0x003#12) ∧
  decodeTableWord 32 0x7E208FA3 = some (.sb 2#5 1#5 0x7FF#12) ∧
  decodeTableWord 32 0xFE231E23 = some (.sh 2#5 6#5 0xFFC#12) ∧
  decodeTableWord 32 0x0022A1A3 = some (.sw 2#5 5#5 0x003#12)

/-- R90: a word with a LOAD or STORE opcode and another funct3 is no instruction; a word that is no instruction never
reaches CORE; and another pair presented to CORE is refused, not mapped to a fault or to a neighbour. The clause that
a step over a word that is no instruction is refused is the model's choice (log entry 7, the word placed as log entry 4
says): R90 leaves outside CORE what becomes of such a word. -/
def Obligations.IllegalVariantsAreRefused : Prop :=
  let illegal (st : Bool) (f : BitVec 3) : Prop :=
    (st = false ∧ (f = 0b011#3 ∨ f = 0b110#3 ∨ f = 0b111#3)) ∨
    (st = true ∧ (f = 0b011#3 ∨ f = 0b100#3 ∨ f = 0b101#3 ∨ f = 0b110#3 ∨ f = 0b111#3))
  (∀ (w : Word) (st : Bool), w.extractLsb' 0 7 = (if st then 0b0100011#7 else 0b0000011#7) →
    illegal st (w.extractLsb' 12 3) → ∀ i, decodeWord w ≠ .ok i) ∧
  (∀ w : Word, (∀ i, decodeWord w ≠ .ok i) → deliveryOfWord w = .malformed w ∧
    ∀ s : State, step (s.withFetchWord 32 w.toNat) = .refused (.malformedWord w)) ∧
  (∀ (s : State) (p : PortIn) (rest : List Delivery), s.pending = .operands p :: rest → illegal p.store p.funct3 →
    step s = .refused (.illegalVariant p.store p.funct3))

/-- R85: width and signedness follow from funct3, for every legal pair; LW ignores the signedness (R63). -/
def Obligations.WidthAndSignFromFunct3 : Prop :=
  ∀ (p : PortIn) (i : Instr), Instr.ofPort p = some i →
    isStore i = p.store ∧
    (p.funct3.extractLsb' 0 2 = 0b00#2 → widthBytes (width i) = 1) ∧
    (p.funct3.extractLsb' 0 2 = 0b01#2 → widthBytes (width i) = 2) ∧
    (p.funct3.extractLsb' 0 2 = 0b10#2 → widthBytes (width i) = 4) ∧
    p.funct3.extractLsb' 0 2 ≠ 0b11#2 ∧
    (p.store = false → width i ≠ .word → (signed i = true ↔ p.funct3.getLsbD 2 = false))

/-! ### The address, the checks and the faults -/

/-- R87: the offset as a signed number and as the unsigned number the adder adds. -/
def Obligations.OffsetRange : Prop :=
  ∀ imm : Imm12,
    -2048 ≤ (immediate imm).toInt ∧ (immediate imm).toInt ≤ 2047 ∧ (immediate imm).toInt = imm.toInt ∧
    (imm.getLsbD 11 = false → (immediate imm).toNat ≤ 0x7FF) ∧
    (imm.getLsbD 11 = true → 0xFFFFF800 ≤ (immediate imm).toNat)

/-- R55: the overflow condition and the address, case by case, and the rule's example. -/
def Obligations.AdderOverflowCases : Prop :=
  (∀ (base : Word) (imm : Imm12),
    let r := effectiveAddress base (immediate imm)
    let d := imm.toNat
    let k := 4096 - imm.toNat
    (imm.getLsbD 11 = false →
      (base.toNat > 0xFFFFFFFF - d → r = .error .addressCalculationOverflow) ∧
      (base.toNat ≤ 0xFFFFFFFF - d → ∃ ea, r = .ok ea ∧ ea.toNat = base.toNat + d)) ∧
    (imm.getLsbD 11 = true →
      (base.toNat ≥ k → r = .error .addressCalculationOverflow) ∧
      (base.toNat < k → ∃ ea, r = .ok ea ∧ ea.toNat = 2 ^ 32 - k + base.toNat ∧ 0xFFFFF800 ≤ ea.toNat)) ∧
    effectiveAddress base (immediate 0#12) = .ok base) ∧
  (∀ s : State, s.regs.read 2#5 = 0x1000#32 →
    exec (.lw 1#5 2#5 0xFFC#12) s = .fault .addressCalculationOverflow)

/-- R171: every instruction faults so exactly when the exact sum does not fit 32 bits, and the fault has no address. -/
def Obligations.OverflowFaultsExactly : Prop :=
  (∀ (i : Instr) (s : State),
    exec i s = .fault .addressCalculationOverflow ↔ 2 ^ 32 ≤ exactSum s (baseReg i) (rawImm i)) ∧
  (OutPort.faulted .addressCalculationOverflow).faultAddr = 0#32

/-- R172: the read variant for loads and the write variant for stores, exactly when the effective address is no
multiple of the width, with that address; never for a byte access. -/
def Obligations.MisalignmentFaultsExactly : Prop :=
  ∀ (i : Instr) (s : State) (a : Word),
    let sum := exactSum s (baseReg i) (rawImm i)
    let W := widthBytes (width i)
    (exec i s = .fault (.unalignedRead a) ↔
      isStore i = false ∧ sum < 2 ^ 32 ∧ sum % W ≠ 0 ∧ a.toNat = sum) ∧
    (exec i s = .fault (.unalignedWrite a) ↔
      isStore i = true ∧ sum < 2 ^ 32 ∧ sum % W ≠ 0 ∧ a.toNat = sum) ∧
    (width i = .byte → exec i s ≠ .fault (.unalignedRead a) ∧ exec i s ≠ .fault (.unalignedWrite a))

/-- R57: an access that passed the checks before faults exactly when it does not lie wholly inside the extent, with
its effective address. -/
def Obligations.OutOfBoundsFaultsExactly : Prop :=
  ∀ (i : Instr) (s : State) (a : Word),
    let sum := exactSum s (baseReg i) (rawImm i)
    let W := widthBytes (width i)
    exec i s = .fault (.outOfBounds a) ↔
      sum < 2 ^ 32 ∧ sum % W = 0 ∧ ¬ (s.cfg.memLo.toNat ≤ sum ∧ sum + W - 1 ≤ s.cfg.memHi.toNat) ∧ a.toNat = sum

/-- R58: with the default extent no access fails the bounds check. -/
def Obligations.DefaultExtentHasNoOutOfBounds : Prop :=
  ∀ (i : Instr) (s : State) (a : Word),
    s.cfg.memLo = 0x00000000#32 → s.cfg.memHi = 0xFFFFFFFF#32 → exec i s ≠ .fault (.outOfBounds a)

/-- U12: with an inverted extent every access that passes the checks before faults out of bounds, and none succeeds. -/
def Obligations.InvertedExtentAllowsNoAccess : Prop :=
  ∀ (i : Instr) (s : State), s.cfg.memHi.toNat < s.cfg.memLo.toNat →
    let sum := exactSum s (baseReg i) (rawImm i)
    (∀ t, exec i s ≠ .next t) ∧
    (sum < 2 ^ 32 → sum % widthBytes (width i) = 0 → exec i s = .fault (.outOfBounds (BitVec.ofNat 32 sum)))

/-- The order of R66 and R176 for all eight instructions: the first check that fails decides the fault, and an
instruction that passes the three completes. -/
def Obligations.FirstFailingCheckDecides : Prop :=
  ∀ (i : Instr) (s : State),
    let sum := exactSum s (baseReg i) (rawImm i)
    let W := widthBytes (width i)
    let ea : Word := BitVec.ofNat 32 sum
    (2 ^ 32 ≤ sum → exec i s = .fault .addressCalculationOverflow) ∧
    (sum < 2 ^ 32 → sum % W ≠ 0 → isStore i = false → exec i s = .fault (.unalignedRead ea)) ∧
    (sum < 2 ^ 32 → sum % W ≠ 0 → isStore i = true → exec i s = .fault (.unalignedWrite ea)) ∧
    (sum < 2 ^ 32 → sum % W = 0 → ¬ (s.cfg.memLo.toNat ≤ sum ∧ sum + W - 1 ≤ s.cfg.memHi.toNat) →
      exec i s = .fault (.outOfBounds ea)) ∧
    (accessOk s (baseReg i) (rawImm i) W → ∃ t, exec i s = .next t)

/-- R175: the code and the address of each fault on the port, and 0 for no fault; the codes 5 to 7 stand for none. -/
def Obligations.FaultCodesOnPort : Prop :=
  (∀ r p, (OutPort.ok r p).fault = false ∧ (OutPort.ok r p).faultKind = 0#3 ∧ (OutPort.ok r p).faultAddr = 0#32) ∧
  (∀ f, (OutPort.faulted f).fault = true) ∧
  (OutPort.faulted .addressCalculationOverflow).faultKind = 1#3 ∧
  (OutPort.faulted .addressCalculationOverflow).faultAddr = 0#32 ∧
  (∀ a, (OutPort.faulted (.unalignedRead a)).faultKind = 2#3 ∧ (OutPort.faulted (.unalignedRead a)).faultAddr = a) ∧
  (∀ a, (OutPort.faulted (.unalignedWrite a)).faultKind = 3#3 ∧ (OutPort.faulted (.unalignedWrite a)).faultAddr = a) ∧
  (∀ a, (OutPort.faulted (.outOfBounds a)).faultKind = 4#3 ∧ (OutPort.faulted (.outOfBounds a)).faultAddr = a) ∧
  (∀ f, Fault.ofCode (OutPort.faulted f).faultKind (OutPort.faulted f).faultAddr = some f) ∧
  (∀ a, Fault.ofCode 5#3 a = none ∧ Fault.ofCode 6#3 a = none ∧ Fault.ofCode 7#3 a = none)

/-! ### The stores -/

/-- R122, SB: its encoding and CORE inputs, its result, its faults, and the word of its example. -/
def Obligations.StoreByteMeaning : Prop :=
  (∀ (rs2 rs1 : RegId) (imm : Imm12) (s : State),
    let ea := exactSum s rs1 imm
    let data := s.regs.read rs2
    encode (.sb rs2 rs1 imm) = imm.extractLsb' 5 7 ++ rs2 ++ rs1 ++ 0b000#3 ++ imm.extractLsb' 0 5 ++ 0b0100011#7 ∧
    (Instr.sb rs2 rs1 imm).toPort.store = true ∧ (Instr.sb rs2 rs1 imm).toPort.funct3 = 0b000#3 ∧
    (accessOk s rs1 imm 1 →
      exec (.sb rs2 rs1 imm) s = .next { s with
        mem := s.mem.write ea (data.extractLsb' 0 8)
        out := storePort 1#3 ea ((data.extractLsb' 0 8).setWidth 32) }) ∧
    (2 ^ 32 ≤ ea → exec (.sb rs2 rs1 imm) s = .fault .addressCalculationOverflow) ∧
    (ea < 2 ^ 32 → ¬ (s.cfg.memLo.toNat ≤ ea ∧ ea ≤ s.cfg.memHi.toNat) →
      exec (.sb rs2 rs1 imm) s = .fault (.outOfBounds (BitVec.ofNat 32 ea)))) ∧
  decodeTableWord 32 0x002081A3 = some (.sb 2#5 1#5 0x003#12)

/-- R123, SH: its encoding and CORE inputs, its result, its faults in their order, and the word of its example. -/
def Obligations.StoreHalfMeaning : Prop :=
  (∀ (rs2 rs1 : RegId) (imm : Imm12) (s : State),
    let ea := exactSum s rs1 imm
    let data := s.regs.read rs2
    encode (.sh rs2 rs1 imm) = imm.extractLsb' 5 7 ++ rs2 ++ rs1 ++ 0b001#3 ++ imm.extractLsb' 0 5 ++ 0b0100011#7 ∧
    (Instr.sh rs2 rs1 imm).toPort.store = true ∧ (Instr.sh rs2 rs1 imm).toPort.funct3 = 0b001#3 ∧
    (accessOk s rs1 imm 2 →
      exec (.sh rs2 rs1 imm) s = .next { s with
        mem := (s.mem.write ea (data.extractLsb' 0 8)).write (ea + 1) (data.extractLsb' 8 8)
        out := storePort 2#3 ea ((data.extractLsb' 0 16).setWidth 32) }) ∧
    (2 ^ 32 ≤ ea → exec (.sh rs2 rs1 imm) s = .fault .addressCalculationOverflow) ∧
    (ea < 2 ^ 32 → ea % 2 = 1 → exec (.sh rs2 rs1 imm) s = .fault (.unalignedWrite (BitVec.ofNat 32 ea))) ∧
    (ea < 2 ^ 32 → ea % 2 = 0 → ea < s.cfg.memLo.toNat ∨ ea + 1 > s.cfg.memHi.toNat →
      exec (.sh rs2 rs1 imm) s = .fault (.outOfBounds (BitVec.ofNat 32 ea)))) ∧
  decodeTableWord 32 0x00209123 = some (.sh 2#5 1#5 0x002#12)

/-- R124, SW: its encoding and CORE inputs, its result, its faults in their order, its highest address, and the word
of its example. -/
def Obligations.StoreWordMeaning : Prop :=
  (∀ (rs2 rs1 : RegId) (imm : Imm12) (s : State),
    let ea := exactSum s rs1 imm
    let data := s.regs.read rs2
    encode (.sw rs2 rs1 imm) = imm.extractLsb' 5 7 ++ rs2 ++ rs1 ++ 0b010#3 ++ imm.extractLsb' 0 5 ++ 0b0100011#7 ∧
    (Instr.sw rs2 rs1 imm).toPort.store = true ∧ (Instr.sw rs2 rs1 imm).toPort.funct3 = 0b010#3 ∧
    (accessOk s rs1 imm 4 → ea ≤ 0xFFFFFFFC ∧
      exec (.sw rs2 rs1 imm) s = .next { s with
        mem := (((s.mem.write ea (data.extractLsb' 0 8)).write (ea + 1) (data.extractLsb' 8 8)).write
          (ea + 2) (data.extractLsb' 16 8)).write (ea + 3) (data.extractLsb' 24 8)
        out := storePort 4#3 ea data }) ∧
    (2 ^ 32 ≤ ea → exec (.sw rs2 rs1 imm) s = .fault .addressCalculationOverflow) ∧
    (ea < 2 ^ 32 → ea % 4 ≠ 0 → exec (.sw rs2 rs1 imm) s = .fault (.unalignedWrite (BitVec.ofNat 32 ea))) ∧
    (ea < 2 ^ 32 → ea % 4 = 0 → ea < s.cfg.memLo.toNat ∨ ea + 3 > s.cfg.memHi.toNat →
      exec (.sw rs2 rs1 imm) s = .fault (.outOfBounds (BitVec.ofNat 32 ea)))) ∧
  decodeTableWord 32 0x0020A223 = some (.sw 2#5 1#5 0x004#12)

/-- The frame of the stores SB, SH and SW: no register is written, the parameters and what is pending stay, and every
byte outside the access, at the address the meaning computes, reads as before. -/
def Obligations.StoreFrame : Prop :=
  ∀ (i : Instr) (s t : State), isStore i = true → exec i s = .next t →
    t.regs = s.regs ∧ t.cfg = s.cfg ∧ t.pending = s.pending ∧
    ∀ ea, effectiveAddress (s.regs.read (baseReg i)) (immediate (rawImm i)) = .ok ea →
      ∀ a, a < ea.toNat ∨ ea.toNat + widthBytes (width i) ≤ a → t.mem.read a = s.mem.read a

/-! ### The loads -/

/-- R143, LB: its encoding and CORE inputs, its result, its faults, and the word of its example. -/
def Obligations.LoadByteMeaning : Prop :=
  (∀ (rd rs1 : RegId) (imm : Imm12) (s : State),
    let ea := exactSum s rs1 imm
    let v : Word := (s.mem.read ea).signExtend 32
    encode (.lb rd rs1 imm) = imm ++ rs1 ++ 0b000#3 ++ rd ++ 0b0000011#7 ∧
    (Instr.lb rd rs1 imm).toPort.store = false ∧ (Instr.lb rd rs1 imm).toPort.funct3 = 0b000#3 ∧
    (accessOk s rs1 imm 1 →
      exec (.lb rd rs1 imm) s = .next { s with regs := s.regs.write rd v, out := loadPort 1#3 ea rd v }) ∧
    (2 ^ 32 ≤ ea → exec (.lb rd rs1 imm) s = .fault .addressCalculationOverflow) ∧
    (ea < 2 ^ 32 → ¬ (s.cfg.memLo.toNat ≤ ea ∧ ea ≤ s.cfg.memHi.toNat) →
      exec (.lb rd rs1 imm) s = .fault (.outOfBounds (BitVec.ofNat 32 ea)))) ∧
  decodeTableWord 32 0x00008183 = some (.lb 3#5 1#5 0x000#12)

/-- R144, LH: its encoding and CORE inputs, its result, its faults in their order, and the word of its example. -/
def Obligations.LoadHalfMeaning : Prop :=
  (∀ (rd rs1 : RegId) (imm : Imm12) (s : State),
    let ea := exactSum s rs1 imm
    let v : Word := (s.mem.read (ea + 1) ++ s.mem.read ea).signExtend 32
    encode (.lh rd rs1 imm) = imm ++ rs1 ++ 0b001#3 ++ rd ++ 0b0000011#7 ∧
    (Instr.lh rd rs1 imm).toPort.store = false ∧ (Instr.lh rd rs1 imm).toPort.funct3 = 0b001#3 ∧
    (accessOk s rs1 imm 2 →
      exec (.lh rd rs1 imm) s = .next { s with regs := s.regs.write rd v, out := loadPort 2#3 ea rd v }) ∧
    (2 ^ 32 ≤ ea → exec (.lh rd rs1 imm) s = .fault .addressCalculationOverflow) ∧
    (ea < 2 ^ 32 → ea % 2 = 1 → exec (.lh rd rs1 imm) s = .fault (.unalignedRead (BitVec.ofNat 32 ea))) ∧
    (ea < 2 ^ 32 → ea % 2 = 0 → ea < s.cfg.memLo.toNat ∨ ea + 1 > s.cfg.memHi.toNat →
      exec (.lh rd rs1 imm) s = .fault (.outOfBounds (BitVec.ofNat 32 ea)))) ∧
  decodeTableWord 32 0x00209183 = some (.lh 3#5 1#5 0x002#12)

/-- R145, LW: its encoding and CORE inputs, its result, its faults in their order, and the words the rule writes out. -/
def Obligations.LoadWordMeaning : Prop :=
  (∀ (rd rs1 : RegId) (imm : Imm12) (s : State),
    let ea := exactSum s rs1 imm
    let v : Word := s.mem.read (ea + 3) ++ s.mem.read (ea + 2) ++ s.mem.read (ea + 1) ++ s.mem.read ea
    encode (.lw rd rs1 imm) = imm ++ rs1 ++ 0b010#3 ++ rd ++ 0b0000011#7 ∧
    (Instr.lw rd rs1 imm).toPort.store = false ∧ (Instr.lw rd rs1 imm).toPort.funct3 = 0b010#3 ∧
    (accessOk s rs1 imm 4 →
      exec (.lw rd rs1 imm) s = .next { s with regs := s.regs.write rd v, out := loadPort 4#3 ea rd v }) ∧
    (2 ^ 32 ≤ ea → exec (.lw rd rs1 imm) s = .fault .addressCalculationOverflow) ∧
    (ea < 2 ^ 32 → ea % 4 ≠ 0 → exec (.lw rd rs1 imm) s = .fault (.unalignedRead (BitVec.ofNat 32 ea))) ∧
    (ea < 2 ^ 32 → ea % 4 = 0 → ea < s.cfg.memLo.toNat ∨ ea + 3 > s.cfg.memHi.toNat →
      exec (.lw rd rs1 imm) s = .fault (.outOfBounds (BitVec.ofNat 32 ea)))) ∧
  decodeTableWord 32 0x0040A183 = some (.lw 3#5 1#5 0x004#12) ∧
  decodeTableWord 32 0x0000A083 = some (.lw 1#5 1#5 0x000#12)

/-- R146, LBU: its encoding and CORE inputs, its result and its range, its faults, and the word of its example. -/
def Obligations.LoadByteUnsignedMeaning : Prop :=
  (∀ (rd rs1 : RegId) (imm : Imm12) (s : State),
    let ea := exactSum s rs1 imm
    let v : Word := (s.mem.read ea).setWidth 32
    encode (.lbu rd rs1 imm) = imm ++ rs1 ++ 0b100#3 ++ rd ++ 0b0000011#7 ∧
    (Instr.lbu rd rs1 imm).toPort.store = false ∧ (Instr.lbu rd rs1 imm).toPort.funct3 = 0b100#3 ∧
    (accessOk s rs1 imm 1 → v.toNat ≤ 0x000000FF ∧
      exec (.lbu rd rs1 imm) s = .next { s with regs := s.regs.write rd v, out := loadPort 1#3 ea rd v }) ∧
    (2 ^ 32 ≤ ea → exec (.lbu rd rs1 imm) s = .fault .addressCalculationOverflow) ∧
    (ea < 2 ^ 32 → ¬ (s.cfg.memLo.toNat ≤ ea ∧ ea ≤ s.cfg.memHi.toNat) →
      exec (.lbu rd rs1 imm) s = .fault (.outOfBounds (BitVec.ofNat 32 ea)))) ∧
  decodeTableWord 32 0x0000C183 = some (.lbu 3#5 1#5 0x000#12)

/-- R147, LHU: its encoding and CORE inputs, its result and its range, its faults in their order, and the word of its
example. -/
def Obligations.LoadHalfUnsignedMeaning : Prop :=
  (∀ (rd rs1 : RegId) (imm : Imm12) (s : State),
    let ea := exactSum s rs1 imm
    let v : Word := (s.mem.read (ea + 1) ++ s.mem.read ea).setWidth 32
    encode (.lhu rd rs1 imm) = imm ++ rs1 ++ 0b101#3 ++ rd ++ 0b0000011#7 ∧
    (Instr.lhu rd rs1 imm).toPort.store = false ∧ (Instr.lhu rd rs1 imm).toPort.funct3 = 0b101#3 ∧
    (accessOk s rs1 imm 2 → v.toNat ≤ 0x0000FFFF ∧
      exec (.lhu rd rs1 imm) s = .next { s with regs := s.regs.write rd v, out := loadPort 2#3 ea rd v }) ∧
    (2 ^ 32 ≤ ea → exec (.lhu rd rs1 imm) s = .fault .addressCalculationOverflow) ∧
    (ea < 2 ^ 32 → ea % 2 = 1 → exec (.lhu rd rs1 imm) s = .fault (.unalignedRead (BitVec.ofNat 32 ea))) ∧
    (ea < 2 ^ 32 → ea % 2 = 0 → ea < s.cfg.memLo.toNat ∨ ea + 1 > s.cfg.memHi.toNat →
      exec (.lhu rd rs1 imm) s = .fault (.outOfBounds (BitVec.ofNat 32 ea)))) ∧
  decodeTableWord 32 0x0020D183 = some (.lhu 3#5 1#5 0x002#12)

/-- The frame of the loads LB, LH, LW, LBU and LHU: all of memory, the parameters and what is pending stay, and so does
every register but the destination; register 0 as a destination stays as well. -/
def Obligations.LoadFrame : Prop :=
  ∀ (i : Instr) (s t : State), isStore i = false → exec i s = .next t →
    t.mem = s.mem ∧ t.cfg = s.cfg ∧ t.pending = s.pending ∧
    (∀ r, destReg i ≠ some r → t.regs.read r = s.regs.read r) ∧
    (destReg i = some 0#5 → t.regs = s.regs)

/-- R141: a load to register 0 is executed in full, for each of the five loads: it faults as it would with any other
destination, and where it succeeds it writes no register, gives the same record, and reports no register. -/
def Obligations.LoadToRegisterZero : Prop :=
  ∀ (mk : RegId → RegId → Imm12 → Instr), mk ∈ [Instr.lb, Instr.lh, Instr.lw, Instr.lbu, Instr.lhu] →
    ∀ (rd rs1 : RegId) (imm : Imm12) (s : State),
      (∀ f, exec (mk 0#5 rs1 imm) s = .fault f ↔ exec (mk rd rs1 imm) s = .fault f) ∧
      (∀ t, exec (mk rd rs1 imm) s = .next t → ∃ u, exec (mk 0#5 rs1 imm) s = .next u ∧
        u.regs = s.regs ∧ u.mem = s.mem ∧
        u.out.recValid = true ∧ u.out.recWidth = t.out.recWidth ∧ u.out.recAddr = t.out.recAddr ∧
        u.out.recValue = t.out.recValue ∧
        u.out.wbValid = false ∧ u.out.wbReg = 0#5 ∧ u.out.wbValue = 0#32)

/-- A load depends on no byte outside its access (R61): two states with the same registers and extent that agree on
those bytes give the same fault, or the same registers and the same outcome on the port. -/
def Obligations.LoadReadsOnlyItsBytes : Prop :=
  ∀ (i : Instr) (s t : State), isStore i = false → s.regs = t.regs → s.cfg = t.cfg →
    (∀ k, k < widthBytes (width i) →
      s.mem.read (exactSum s (baseReg i) (rawImm i) + k) = t.mem.read (exactSum s (baseReg i) (rawImm i) + k)) →
    (∀ f, exec i s = .fault f ↔ exec i t = .fault f) ∧
    (∀ s', exec i s = .next s' → ∃ t', exec i t = .next t' ∧ t'.regs = s'.regs ∧ t'.out = s'.out)

/-! ### Memory over several instructions -/

/-- What every successful instruction leaves at every address: a store's byte inside its access, low byte first (R51,
R59), and the byte found everywhere else. A later load therefore reads, for each byte, what the last successful store
to it left (R71). -/
def Obligations.MemoryAfterEveryInstruction : Prop :=
  ∀ (i : Instr) (s t : State), s.mem.wf = true → exec i s = .next t →
    ∀ a, t.mem.read a =
      match dataReg i with
      | none => s.mem.read a
      | some rs2 =>
        if exactSum s (baseReg i) (rawImm i) ≤ a ∧ a < exactSum s (baseReg i) (rawImm i) + widthBytes (width i) then
          (s.regs.read rs2).extractLsb' (8 * (a - exactSum s (baseReg i) (rawImm i))) 8
        else s.mem.read a

/-- The law L-Trunc of the spec's test vectors in the form in which it holds (95 §1.2, C2): a load of the same width at
the same address gives back the datum modulo 2^(8W), or its sign extension for LB and LH. -/
def Obligations.StoreThenLoadReturnsDatum : Prop :=
  ∀ (s : State) (rs2 rs1 rd : RegId) (imm : Imm12), s.mem.wf = true →
    let x := s.regs.read rs2
    let reads (i : Instr) (t : State) (v : Word) : Prop :=
      ∃ u, exec i t = .next u ∧ u.out.recValue = v ∧ (rd ≠ 0#5 → u.regs.read rd = v)
    (accessOk s rs1 imm 1 → ∃ t, exec (.sb rs2 rs1 imm) s = .next t ∧
      reads (.lbu rd rs1 imm) t (BitVec.ofNat 32 (x.toNat % 2 ^ 8)) ∧
      reads (.lb rd rs1 imm) t ((BitVec.ofNat 8 (x.toNat % 2 ^ 8)).signExtend 32)) ∧
    (accessOk s rs1 imm 2 → ∃ t, exec (.sh rs2 rs1 imm) s = .next t ∧
      reads (.lhu rd rs1 imm) t (BitVec.ofNat 32 (x.toNat % 2 ^ 16)) ∧
      reads (.lh rd rs1 imm) t ((BitVec.ofNat 16 (x.toNat % 2 ^ 16)).signExtend 32)) ∧
    (accessOk s rs1 imm 4 → ∃ t, exec (.sw rs2 rs1 imm) s = .next t ∧ reads (.lw rd rs1 imm) t x)

/-- R53: after a word store of `v` at `A` the bytes stand in place, low byte first, and half-word and byte loads at the
addresses inside it see them in place and extend them. -/
def Obligations.MixedWidthLoadsSeeBytesInPlace : Prop :=
  ∀ (s : State) (rs2 rs1 : RegId) (imm : Imm12), s.mem.wf = true → accessOk s rs1 imm 4 →
    let v := s.regs.read rs2
    let A := exactSum s rs1 imm
    ∃ t, exec (.sw rs2 rs1 imm) s = .next t ∧
      (∀ k, k < 4 → t.mem.read (A + k) = v.extractLsb' (8 * k) 8) ∧
      (∀ (h : Nat) (rd r1 : RegId) (j : Imm12), h < 2 → exactSum t r1 j = A + 2 * h →
        (∃ u, exec (.lhu rd r1 j) t = .next u ∧ u.out.recValue = (v.extractLsb' (16 * h) 16).setWidth 32) ∧
        (∃ u, exec (.lh rd r1 j) t = .next u ∧ u.out.recValue = (v.extractLsb' (16 * h) 16).signExtend 32)) ∧
      (∀ (k : Nat) (rd r1 : RegId) (j : Imm12), k < 4 → exactSum t r1 j = A + k →
        (∃ u, exec (.lbu rd r1 j) t = .next u ∧ u.out.recValue = (v.extractLsb' (8 * k) 8).setWidth 32) ∧
        (∃ u, exec (.lb rd r1 j) t = .next u ∧ u.out.recValue = (v.extractLsb' (8 * k) 8).signExtend 32))

/-! ### The state -/

/-- R22 and R23: register 0 reads 0 and drops writes; another register reads as it is stored, a write to it is read
back, and a write changes no other. -/
def Obligations.RegisterFileReadsAndWrites : Prop :=
  ∀ (f : RegFile) (i j : RegId) (v : Word),
    f.read 0#5 = 0#32 ∧ f.write 0#5 v = f ∧
    (∀ h : i.toNat - 1 < 31, i ≠ 0#5 → f.read i = f[i.toNat - 1]) ∧
    (i ≠ 0#5 → (f.write i v).read i = v) ∧ (j ≠ i → (f.write i v).read j = f.read j)

/-- R34: two states hold the same registers and memory exactly when registers 1 to 31 and every byte are equal. The
premise is the canonical form, which every reachable memory has (`StepKeepsInvariant`, `ResetMeetsInvariant`). -/
def Obligations.StateIsItsRegistersAndBytes : Prop :=
  ∀ s t : State, s.mem.wf = true → t.mem.wf = true →
    ((s.regs = t.regs ∧ s.mem = t.mem) ↔
      (∀ i : RegId, i ≠ 0#5 → s.regs.read i = t.regs.read i) ∧
      (∀ a, a < 2 ^ 32 → s.mem.read a = t.mem.read a))

/-- Every step keeps the canonical form of the memory and an outcome on the port that the spec allows (R42, R175): from
every state that has both, not only from reset. -/
def Obligations.StepKeepsInvariant : Prop :=
  ∀ s t : State, s.Inv → step s = .next t → t.Inv

/-- The state after reset has the invariant. -/
def Obligations.ResetMeetsInvariant : Prop := State.reset.Inv

/-- R8, R28: `MEM_LO` and `MEM_HI` are fixed for a run: no step changes them. That the loop's policy and handler are
fixed as well is the model's choice (log entries 3 and 6); the handler is a field of the model's own. -/
def Obligations.StepKeepsParameters : Prop :=
  ∀ s t : State, step s = .next t → t.cfg = s.cfg

/-- R200: the state at reset for every choice of the launch parameters, and the model's reset is one of them. Where the
loader writes no address twice, every byte it writes is there. R200 says that no transaction is in progress; that the
pending list is empty is the model's choice (log entry 4), and so is which parameters its reset has (log entries 1 to
3). -/
def Obligations.LaunchStateFollowsParameters : Prop :=
  (∀ (cfg : Config) (regInit : RegFile) (memInit : List (Word × Byte)),
    let s := State.launch cfg regInit memInit
    s.regs.read 0#5 = 0#32 ∧
    (∀ (i : RegId) (h : i.toNat - 1 < 31), i ≠ 0#5 → s.regs.read i = regInit[i.toNat - 1]) ∧
    ((memInit.map Prod.fst).Nodup → ∀ (a : Word) (b : Byte), (a, b) ∈ memInit → s.mem.read a.toNat = b) ∧
    s.cfg = cfg ∧ s.pending = [] ∧
    s.out.fault = false ∧ s.out.faultKind = 0#3 ∧ s.out.faultAddr = 0#32 ∧
    s.out.recValid = false ∧ s.out.recWidth = 0#3 ∧ s.out.recAddr = 0#32 ∧ s.out.recValue = 0#32 ∧
    s.out.wbValid = false ∧ s.out.wbReg = 0#5 ∧ s.out.wbValue = 0#32) ∧
  ∃ cfg regInit memInit, State.reset = State.launch cfg regInit memInit

/-- R49: the host port writes and reads a register or a byte with no check and no record, and touches nothing else. -/
def Obligations.HostPortActsDirectly : Prop :=
  ∀ (s : State) (i j : RegId) (v : Word) (a c : Word) (b : Byte), s.mem.wf = true →
    hostRegRead j (hostRegWrite i v s) = (if j = i ∧ i ≠ 0#5 then v else hostRegRead j s) ∧
    hostMemRead c (hostMemWrite a b s) = (if c = a then b else hostMemRead c s) ∧
    (hostRegWrite i v s).mem = s.mem ∧ (hostRegWrite i v s).out = s.out ∧ (hostRegWrite i v s).cfg = s.cfg ∧
    (hostMemWrite a b s).regs = s.regs ∧ (hostMemWrite a b s).out = s.out ∧ (hostMemWrite a b s).cfg = s.cfg

/-! ### The transaction and its outputs -/

/-- R102: each instruction is the generic pipeline, written line by line in `execute`, on its operand set, whatever
stands in the field its family does not use. -/
def Obligations.MeaningsRefineGenericPipeline : Prop :=
  ∀ (p : PortIn) (i : Instr) (s : State), Instr.ofPort p = some i → exec i s = execute p s

/-- R32: a transaction that succeeds goes through its family's three phases, and one that faults stays in `Decoded`;
there is no third way. -/
def Obligations.PhasesOfATransaction : Prop :=
  ∀ (i : Instr) (s : State),
    ((∃ t, exec i s = .next t) ∧ isStore i = true ∧
      phases (accessOf i) s = [.decoded, .memoryWritten, .writtenBack]) ∨
    ((∃ t, exec i s = .next t) ∧ isStore i = false ∧
      phases (accessOf i) s = [.decoded, .memoryRead, .writtenBack]) ∨
    ((∃ f, exec i s = .fault f) ∧ phases (accessOf i) s = [.decoded])

/-- R106: the access record of every successful instruction, and none with a fault. -/
def Obligations.AccessRecordOfEverySuccess : Prop :=
  (∀ (i : Instr) (s t : State), exec i s = .next t →
    let sum := exactSum s (baseReg i) (rawImm i)
    let W := widthBytes (width i)
    t.out.recValid = true ∧ t.out.recWidth.toNat = W ∧ t.out.recAddr.toNat = sum ∧
    (∀ rs2, dataReg i = some rs2 → t.out.recValue.toNat = (s.regs.read rs2).toNat % 2 ^ (8 * W)) ∧
    (dataReg i = none → t.out.recValue = loadAdapter (width i) (signed i) (memRead s.mem sum W))) ∧
  (∀ f, (OutPort.faulted f).recValid = false)

/-- R107: the one write-back report of every successful instruction, and none with a fault. -/
def Obligations.WriteBackReportOfEverySuccess : Prop :=
  (∀ (i : Instr) (s t : State), exec i s = .next t →
    (∀ rd, destReg i = some rd → rd ≠ 0#5 →
      t.out.wbValid = true ∧ t.out.wbReg = rd ∧ t.out.wbValue = t.out.recValue ∧ t.regs.read rd = t.out.recValue) ∧
    ((destReg i = none ∨ destReg i = some 0#5) →
      t.out.wbValid = false ∧ t.out.wbReg = 0#5 ∧ t.out.wbValue = 0#32)) ∧
  (∀ f, (OutPort.faulted f).wbValid = false)

/-- The unused field of a family has no effect (R31, R89, U10): two operand sets that differ only in `rd` for a store,
or only in `rs2` for a load, end every transaction alike. -/
def Obligations.UnusedFieldHasNoEffect : Prop :=
  ∀ (p : PortIn) (x : RegId) (s : State),
    (p.store = true → present (.operands { p with rd := x }) s = present (.operands p) s) ∧
    (p.store = false → present (.operands { p with rs2 := x }) s = present (.operands p) s)

/-! ### The step -/

/-- A step runs the instruction its pending operand set selects, in the state in which that is no longer pending, and
what it answers is exec's own answer, with a fault handed to the loop's policy. -/
def Obligations.StepRunsPresentedInstruction : Prop :=
  ∀ (s : State) (p : PortIn) (rest : List Delivery) (i : Instr),
    s.pending = .operands p :: rest → Instr.ofPort p = some i →
    (∀ t, exec i { s with pending := rest } = .next t → step s = .next t) ∧
    (∀ f, exec i { s with pending := rest } = .fault f → step s = receiveFault { s with pending := rest } f) ∧
    (∀ r, exec i { s with pending := rest } ≠ .refused r)

/-- A word that decodes to an instruction, placed as the next one, is run by the next step as that instruction. -/
def Obligations.StepRunsDecodedWord : Prop :=
  ∀ (s : State) (w : Nat) (i : Instr), decodeTableWord 32 w = some i →
    let s' : State := { s with pending := s.pending.drop 1 }
    (∀ t, exec i s' = .next t → step (s.withFetchWord 32 w) = .next t) ∧
    (∀ f, exec i s' = .fault f → step (s.withFetchWord 32 w) = receiveFault s' f) ∧
    (∀ r, exec i s' ≠ .refused r)

/-- R181, R178 and R105 for a fault of the instruction presented: `halt` stops with it; `recordAndContinue` (the spec's
`continue`) goes on with the next instruction and `trap` with the loop's handler, and both change nothing but the
outcome port. What `trap` presents next is the model's choice (log entry 6). -/
def Obligations.LoopFaultPolicies : Prop :=
  ∀ (s : State) (p : PortIn) (rest : List Delivery) (i : Instr) (f : Fault),
    s.pending = .operands p :: rest → Instr.ofPort p = some i → exec i { s with pending := rest } = .fault f →
    let out : OutPort :=
      { fault := true, faultKind := f.code, faultAddr := f.addr, recValid := false, recWidth := 0#3, recAddr := 0#32,
        recValue := 0#32, wbValid := false, wbReg := 0#5, wbValue := 0#32 }
    (s.cfg.policy = .halt → step s = .fault f) ∧
    (s.cfg.policy = .recordAndContinue → step s = .next { s with out := out, pending := rest }) ∧
    (s.cfg.policy = .trap → step s = .next { s with out := out, pending := s.cfg.handler })

/-- R105 seen from outside: after any step whose outcome on the port is a fault, registers and memory are those before
it, and the port shows no record and no report. -/
def Obligations.FaultLeavesStateUnchanged : Prop :=
  ∀ (s t : State) (d : Delivery) (rest : List Delivery), s.pending = d :: rest → step s = .next t →
    t.out.fault = true →
    t.regs = s.regs ∧ t.mem = s.mem ∧ t.out.recValid = false ∧ t.out.recWidth = 0#3 ∧ t.out.recAddr = 0#32 ∧
    t.out.recValue = 0#32 ∧ t.out.wbValid = false ∧ t.out.wbReg = 0#5 ∧ t.out.wbValue = 0#32

/-- R188: between transactions CORE is idle and keeps its state, which is its registers and memory (R34). That an empty
pending list is an idle CORE (log entry 4) and that the outcome port is kept too (log entry 5) is the model's choice. -/
def Obligations.IdleKeepsState : Prop :=
  ∀ s : State, s.pending = [] → step s = .next s

/-- R30: the bytes outside the extent are neither read nor written by any step. Two states that agree on everything
else stop alike or go on to states that agree again, and in each those bytes are as before. -/
def Obligations.BytesOutsideExtentAreIsolated : Prop :=
  ∀ s t : State, s.mem.wf = true → t.mem.wf = true → agreeInExtent s t →
    (∀ f, step s = .fault f ↔ step t = .fault f) ∧
    (∀ r, step s = .refused r ↔ step t = .refused r) ∧
    (∀ s', step s = .next s' → ∃ t', step t = .next t' ∧ agreeInExtent s' t' ∧
      ∀ a, (a < s.cfg.memLo.toNat ∨ s.cfg.memHi.toNat < a) →
        s'.mem.read a = s.mem.read a ∧ t'.mem.read a = t.mem.read a)
end

