-- ==== Sys2Proof/Laws/Checks.lean ====
section
/-! SUPPORT. The three checks of R66 in exact arithmetic: the carry out (R54), alignment (R56) and the extent (R57). -/

namespace Sys2Proof.Machine

theorem sum33_toNat (base off : Word) : (sum33 base off).toNat = base.toNat + off.toNat := by
  have h1 := base.isLt
  have h2 := off.isLt
  simp [sum33, BitVec.toNat_add, BitVec.toNat_setWidth]
  omega

/-- The adder's `ovf` is the carry out of the exact sum. -/
theorem adderOvf_iff (base off : Word) : adderOvf base off = true ↔ addressSpace ≤ base.toNat + off.toNat := by
  have h1 := base.isLt
  have h2 := off.isLt
  rw [adderOvf, BitVec.getLsbD, sum33_toNat, Nat.testBit_eq_decide_div_mod_eq]
  simp only [addressSpace, decide_eq_true_eq]
  omega

/-- The adder's `ea` is the exact sum when there is no carry out. -/
theorem adderEa_toNat {base off : Word} (h : base.toNat + off.toNat < addressSpace) :
    (adderEa base off).toNat = base.toNat + off.toNat := by
  rw [adderEa, BitVec.toNat_setWidth, sum33_toNat]
  exact Nat.mod_eq_of_lt h

/-- The alignment checker asks for an exact multiple of the width. -/
theorem misaligned_iff (a : Word) (W : Width) : misaligned a W = true ↔ a.toNat % widthBytes W ≠ 0 := by
  cases W with
  | byte => simp [misaligned, widthBytes, Nat.mod_one]
  | half =>
    simp only [misaligned, widthBytes, BitVec.getLsbD, Nat.testBit_eq_decide_div_mod_eq, decide_eq_true_eq]
    omega
  | word =>
    simp only [misaligned, widthBytes, decide_eq_true_eq, ne_eq, ← BitVec.toNat_inj, BitVec.extractLsb'_toNat]
    simp

/-- The bounds checker asks that the whole access lie in the extent. -/
theorem oob_iff (cfg : Config) (a : Word) (W : Width) :
    oob cfg a W = true ↔ ¬ (cfg.memLo.toNat ≤ a.toNat ∧ a.toNat + widthBytes W - 1 ≤ cfg.memHi.toNat) := by
  simp only [oob, inExtent, Bool.not_eq_true', Bool.and_eq_false_iff, decide_eq_false_iff_not]
  omega

theorem widthBytes_pos (W : Width) : 0 < widthBytes W := by
  cases W <;> decide

/-- A multiple of the width leaves room for the whole access below 2^32 (R58). -/
theorem aligned_end_le {a n : Nat} (ha : a < addressSpace) (W : Width) (hn : n = widthBytes W) (h : a % n = 0) :
    a + n ≤ addressSpace := by
  subst hn
  cases W <;> simp only [widthBytes, addressSpace] at * <;> omega

/-- Everything the effective-address adder can answer. -/
theorem effectiveAddress_cases (base off : Word) :
    (addressSpace ≤ base.toNat + off.toNat ∧ effectiveAddress base off = .error .addressCalculationOverflow) ∨
    (base.toNat + off.toNat < addressSpace ∧
      effectiveAddress base off = .ok (BitVec.ofNat 32 (base.toNat + off.toNat))) := by
  by_cases h : addressSpace ≤ base.toNat + off.toNat
  · exact .inl ⟨h, by rw [effectiveAddress, if_pos ((adderOvf_iff _ _).2 h)]⟩
  · refine .inr ⟨by omega, ?_⟩
    rw [effectiveAddress, if_neg (fun e => h ((adderOvf_iff _ _).1 e))]
    congr 1
    apply BitVec.eq_of_toNat_eq
    rw [adderEa_toNat (by omega), BitVec.toNat_ofNat]
    exact (Nat.mod_eq_of_lt (by simpa [addressSpace] using h)).symm

/-- Everything the memory interface's write can answer (R64). -/
theorem memoryWrite_cases (cfg : Config) (m : Memory) (a : Word) (W : Width) (v : Word) :
    (a.toNat % widthBytes W ≠ 0 ∧ memoryWrite cfg m a W v = .error (.unalignedWrite a)) ∨
    (a.toNat % widthBytes W = 0 ∧ ¬ (cfg.memLo.toNat ≤ a.toNat ∧ a.toNat + widthBytes W - 1 ≤ cfg.memHi.toNat) ∧
      memoryWrite cfg m a W v = .error (.outOfBounds a)) ∨
    (a.toNat % widthBytes W = 0 ∧ (cfg.memLo.toNat ≤ a.toNat ∧ a.toNat + widthBytes W - 1 ≤ cfg.memHi.toNat) ∧
      memoryWrite cfg m a W v =
        .ok ({ width := W, address := a, value := storeAdapter W v },
          memWrite m a.toNat (widthBytes W) (storeAdapter W v))) := by
  unfold memoryWrite
  split
  · rename_i h
    exact .inl ⟨(misaligned_iff _ _).1 h, rfl⟩
  · rename_i h
    rw [misaligned_iff, not_not] at h
    split
    · rename_i hb
      exact .inr (.inl ⟨h, (oob_iff _ _ _).1 hb, rfl⟩)
    · rename_i hb
      rw [oob_iff, not_not] at hb
      exact .inr (.inr ⟨h, hb, rfl⟩)

/-- Everything the memory interface's read can answer (R65). -/
theorem memoryRead_cases (cfg : Config) (m : Memory) (a : Word) (W : Width) :
    (a.toNat % widthBytes W ≠ 0 ∧ memoryRead cfg m a W = .error (.unalignedRead a)) ∨
    (a.toNat % widthBytes W = 0 ∧ ¬ (cfg.memLo.toNat ≤ a.toNat ∧ a.toNat + widthBytes W - 1 ≤ cfg.memHi.toNat) ∧
      memoryRead cfg m a W = .error (.outOfBounds a)) ∨
    (a.toNat % widthBytes W = 0 ∧ (cfg.memLo.toNat ≤ a.toNat ∧ a.toNat + widthBytes W - 1 ≤ cfg.memHi.toNat) ∧
      memoryRead cfg m a W = .ok (memRead m a.toNat (widthBytes W))) := by
  unfold memoryRead
  split
  · rename_i h
    exact .inl ⟨(misaligned_iff _ _).1 h, rfl⟩
  · rename_i h
    rw [misaligned_iff, not_not] at h
    split
    · rename_i hb
      exact .inr (.inl ⟨h, (oob_iff _ _ _).1 hb, rfl⟩)
    · rename_i hb
      rw [oob_iff, not_not] at hb
      exact .inr (.inr ⟨h, hb, rfl⟩)

end Sys2Proof.Machine
end

