-- ==== Sys2Proof/Laws/Decode.lean ====
section
/-! SUPPORT. The fields of an encoded word, a word rebuilt from its fields, and CORE's variant selection. -/

namespace Sys2Proof

theorem toNat_append_add {m n : Nat} (x : BitVec m) (y : BitVec n) : (x ++ y).toNat = x.toNat * 2 ^ n + y.toNat := by
  rw [BitVec.toNat_append, ← Nat.shiftLeft_add_eq_or_of_lt y.isLt, Nat.shiftLeft_eq]

theorem encodeI_toNat (imm : Imm12) (rs1 : RegId) (funct3 : BitVec 3) (rd : RegId) :
    (encodeI imm rs1 funct3 rd).toNat =
      imm.toNat * 1048576 + rs1.toNat * 32768 + funct3.toNat * 4096 + rd.toNat * 128 + 3 := by
  show BitVec.toNat (w := 12 + 5 + 3 + 5 + 7) (imm ++ rs1 ++ funct3 ++ rd ++ opLoad) = _
  rw [toNat_append_add, toNat_append_add, toNat_append_add, toNat_append_add, opLoad]
  simp only [BitVec.toNat_ofNat]
  omega

theorem encodeS_toNat (imm : Imm12) (rs2 rs1 : RegId) (funct3 : BitVec 3) :
    (encodeS imm rs2 rs1 funct3).toNat =
      imm.toNat / 32 * 33554432 + rs2.toNat * 1048576 + rs1.toNat * 32768 + funct3.toNat * 4096 + imm.toNat % 32 * 128 +
        35 := by
  have := imm.isLt
  show BitVec.toNat (w := 7 + 5 + 5 + 3 + 5 + 7)
    (imm.extractLsb' 5 7 ++ rs2 ++ rs1 ++ funct3 ++ imm.extractLsb' 0 5 ++ opStore) = _
  rw [toNat_append_add, toNat_append_add, toNat_append_add, toNat_append_add, toNat_append_add, opStore]
  simp only [BitVec.toNat_ofNat, BitVec.extractLsb'_toNat, Nat.shiftRight_eq_div_pow, Nat.reducePow]
  omega

theorem fieldImmS_toNat (w : Word) : (fieldImmS w).toNat = (fieldImmHigh w).toNat * 32 + (fieldRd w).toNat := by
  rw [fieldImmS, toNat_append_add]
  norm_num

section Fields

variable (imm : Imm12) (rs1 rs2 rd : RegId) (funct3 : BitVec 3)

theorem fieldOpcode_encodeI : fieldOpcode (encodeI imm rs1 funct3 rd) = opLoad := by
  apply BitVec.eq_of_toNat_eq
  simp only [fieldOpcode, BitVec.extractLsb'_toNat, encodeI_toNat, Nat.shiftRight_eq_div_pow, Nat.reducePow, opLoad, BitVec.toNat_ofNat]
  omega

theorem fieldRd_encodeI : fieldRd (encodeI imm rs1 funct3 rd) = rd := by
  have := rd.isLt
  apply BitVec.eq_of_toNat_eq
  simp only [fieldRd, BitVec.extractLsb'_toNat, encodeI_toNat, Nat.shiftRight_eq_div_pow, Nat.reducePow]
  omega

theorem fieldFunct3_encodeI : fieldFunct3 (encodeI imm rs1 funct3 rd) = funct3 := by
  have := rd.isLt
  have := funct3.isLt
  apply BitVec.eq_of_toNat_eq
  simp only [fieldFunct3, BitVec.extractLsb'_toNat, encodeI_toNat, Nat.shiftRight_eq_div_pow, Nat.reducePow]
  omega

theorem fieldRs1_encodeI : fieldRs1 (encodeI imm rs1 funct3 rd) = rs1 := by
  have := rd.isLt
  have := funct3.isLt
  have := rs1.isLt
  apply BitVec.eq_of_toNat_eq
  simp only [fieldRs1, BitVec.extractLsb'_toNat, encodeI_toNat, Nat.shiftRight_eq_div_pow, Nat.reducePow]
  omega

theorem fieldImmI_encodeI : fieldImmI (encodeI imm rs1 funct3 rd) = imm := by
  have := rd.isLt
  have := funct3.isLt
  have := rs1.isLt
  have := imm.isLt
  apply BitVec.eq_of_toNat_eq
  simp only [fieldImmI, BitVec.extractLsb'_toNat, encodeI_toNat, Nat.shiftRight_eq_div_pow, Nat.reducePow]
  omega

theorem fieldOpcode_encodeS : fieldOpcode (encodeS imm rs2 rs1 funct3) = opStore := by
  apply BitVec.eq_of_toNat_eq
  simp only [fieldOpcode, BitVec.extractLsb'_toNat, encodeS_toNat, Nat.shiftRight_eq_div_pow, Nat.reducePow, opStore, BitVec.toNat_ofNat]
  omega

theorem fieldFunct3_encodeS : fieldFunct3 (encodeS imm rs2 rs1 funct3) = funct3 := by
  have := funct3.isLt
  apply BitVec.eq_of_toNat_eq
  simp only [fieldFunct3, BitVec.extractLsb'_toNat, encodeS_toNat, Nat.shiftRight_eq_div_pow, Nat.reducePow]
  omega

theorem fieldRs1_encodeS : fieldRs1 (encodeS imm rs2 rs1 funct3) = rs1 := by
  have := funct3.isLt
  have := rs1.isLt
  apply BitVec.eq_of_toNat_eq
  simp only [fieldRs1, BitVec.extractLsb'_toNat, encodeS_toNat, Nat.shiftRight_eq_div_pow, Nat.reducePow]
  omega

theorem fieldRs2_encodeS : fieldRs2 (encodeS imm rs2 rs1 funct3) = rs2 := by
  have := funct3.isLt
  have := imm.isLt
  have := rs1.isLt
  have := rs2.isLt
  apply BitVec.eq_of_toNat_eq
  simp only [fieldRs2, BitVec.extractLsb'_toNat, encodeS_toNat, Nat.shiftRight_eq_div_pow, Nat.reducePow]
  have hl : imm.toNat % 32 < 32 := Nat.mod_lt _ (by omega)
  have hh : imm.toNat / 32 < 128 := by omega
  have e := Nat.div_add_mod imm.toNat 32
  generalize imm.toNat / 32 = hi at *
  generalize imm.toNat % 32 = lo at *
  have : (hi * 33554432 + rs2.toNat * 1048576 + rs1.toNat * 32768 + funct3.toNat * 4096 + lo * 128 + 35) / 1048576 =
      hi * 32 + rs2.toNat := by omega
  omega

theorem fieldImmS_encodeS : fieldImmS (encodeS imm rs2 rs1 funct3) = imm := by
  have := funct3.isLt
  have := rs1.isLt
  have := rs2.isLt
  have := imm.isLt
  apply BitVec.eq_of_toNat_eq
  rw [fieldImmS_toNat]
  simp only [fieldImmHigh, fieldRd, BitVec.extractLsb'_toNat, encodeS_toNat, Nat.shiftRight_eq_div_pow, Nat.reducePow]
  have hl : imm.toNat % 32 < 32 := Nat.mod_lt _ (by omega)
  have hh : imm.toNat / 32 < 128 := by omega
  have e := Nat.div_add_mod imm.toNat 32
  generalize imm.toNat / 32 = hi at *
  generalize imm.toNat % 32 = lo at *
  have : (hi * 33554432 + rs2.toNat * 1048576 + rs1.toNat * 32768 + funct3.toNat * 4096 + lo * 128 + 35) / 33554432 =
      hi := by omega
  have : (hi * 33554432 + rs2.toNat * 1048576 + rs1.toNat * 32768 + funct3.toNat * 4096 + lo * 128 + 35) / 128 =
      (hi * 8192 + rs2.toNat * 256 + rs1.toNat * 8 + funct3.toNat) * 32 + lo := by omega
  omega

end Fields

/-- No bit of an I-type word is lost: its fields give it back (R82). -/
theorem encodeI_fields {w : Word} (h : fieldOpcode w = opLoad) :
    encodeI (fieldImmI w) (fieldRs1 w) (fieldFunct3 w) (fieldRd w) = w := by
  have hw := w.isLt
  have ho := congrArg BitVec.toNat h
  simp only [fieldOpcode, BitVec.extractLsb'_toNat, Nat.shiftRight_eq_div_pow, Nat.reducePow, opLoad, BitVec.toNat_ofNat] at ho
  apply BitVec.eq_of_toNat_eq
  rw [encodeI_toNat]
  simp only [fieldImmI, fieldRs1, fieldFunct3, fieldRd, BitVec.extractLsb'_toNat, Nat.shiftRight_eq_div_pow, Nat.reducePow]
  omega

/-- No bit of an S-type word is lost: its fields give it back (R83). -/
theorem encodeS_fields {w : Word} (h : fieldOpcode w = opStore) :
    encodeS (fieldImmS w) (fieldRs2 w) (fieldRs1 w) (fieldFunct3 w) = w := by
  have hw := w.isLt
  have ho := congrArg BitVec.toNat h
  simp only [fieldOpcode, BitVec.extractLsb'_toNat, Nat.shiftRight_eq_div_pow, Nat.reducePow, opStore, BitVec.toNat_ofNat] at ho
  apply BitVec.eq_of_toNat_eq
  rw [encodeS_toNat, fieldImmS_toNat]
  simp only [fieldImmHigh, fieldRs2, fieldRs1, fieldFunct3, fieldRd, BitVec.extractLsb'_toNat,
    Nat.shiftRight_eq_div_pow, Nat.reducePow]
  omega

/-- A word's bytes, lowest address first, give it back. -/
theorem wordOfBytes_bytesOfWord (w : Word) :
    wordOfBytes (w.extractLsb' 0 8) (w.extractLsb' 8 8) (w.extractLsb' 16 8) (w.extractLsb' 24 8) = w := by
  have hw := w.isLt
  apply BitVec.eq_of_toNat_eq
  show BitVec.toNat (w := 8 + 8 + 8 + 8)
    (w.extractLsb' 24 8 ++ w.extractLsb' 16 8 ++ w.extractLsb' 8 8 ++ w.extractLsb' 0 8) = _
  rw [toNat_append_add, toNat_append_add, toNat_append_add]
  simp only [BitVec.extractLsb'_toNat, Nat.shiftRight_eq_div_pow, Nat.reducePow]
  omega

/-- The eight values of a 3-bit field. -/
theorem funct3_cases (f : BitVec 3) :
    f = 0b000#3 ∨ f = 0b001#3 ∨ f = 0b010#3 ∨ f = 0b011#3 ∨ f = 0b100#3 ∨ f = 0b101#3 ∨ f = 0b110#3 ∨ f = 0b111#3 := by
  revert f
  decide

/-- CORE's variant selection takes exactly the legal pairs (R84, R90). -/
theorem ofPort_isSome (p : PortIn) : (Instr.ofPort p).isSome = p.wellFormed := by
  obtain ⟨st, f3, rs1, rs2, rd, imm⟩ := p
  obtain rfl | rfl | rfl | rfl | rfl | rfl | rfl | rfl := funct3_cases f3 <;> cases st <;> rfl

/-- Every instruction is well formed: its operands are legal at every value (R21, R88). -/
theorem Instr.wellFormed_all (i : Instr) : i.wellFormed = true := by
  cases i <;> rfl

/-- An instruction's operand set has a legal pair, its own. -/
theorem toPort_pair (i : Instr) : (i.toPort.store, i.toPort.funct3) = i.pair := by
  cases i <;> rfl

end Sys2Proof
end

