-- ==== Sys2Proof/Laws/Memory.lean ====
section
/-! SUPPORT. The laws of the memory: reading back, the frame of a write, the canonical form is kept, and equal mappings are equal lists. -/

namespace Sys2Proof.Machine

theorem Memory.read_cons (b a : Nat) (v : Byte) (m : Memory) :
    Memory.read ((b, v) :: m) a = if a = b then v else Memory.read m a := rfl

/-- A write leaves every other byte alone, whatever the list. -/
theorem Memory.read_write_ne {a b : Nat} (h : b ≠ a) (v : Byte) (m : Memory) :
    (Memory.write m a v).read b = m.read b := by
  induction m with
  | nil =>
    unfold Memory.write
    split
    · rfl
    · rw [Memory.read_cons, if_neg h]
  | cons c m ih =>
    obtain ⟨d, w⟩ := c
    unfold Memory.write
    split
    · split
      · rfl
      · rw [Memory.read_cons, if_neg h]
    · split
      · rename_i hd
        subst hd
        split
        · rw [Memory.read_cons, if_neg h]
        · rw [Memory.read_cons, if_neg h, Memory.read_cons, if_neg h]
      · rw [Memory.read_cons, Memory.read_cons, ih]

/-- The canonical form, one entry at a time. -/
theorem Memory.wfFrom_cons (lo a : Nat) (v : Byte) (m : Memory) :
    Memory.wfFrom lo ((a, v) :: m) = true ↔
      lo ≤ a ∧ a < addressSpace ∧ v ≠ Memory.unlisted ∧ Memory.wfFrom (a + 1) m = true := by
  simp [Memory.wfFrom, and_assoc]

theorem Memory.wfFrom_mono {lo lo' : Nat} (h : lo' ≤ lo) {m : Memory} (hm : m.wfFrom lo = true) :
    m.wfFrom lo' = true := by
  cases m with
  | nil => rfl
  | cons c m =>
    rw [Memory.wfFrom_cons] at hm ⊢
    exact ⟨by omega, hm.2⟩

/-- Below the first address a canonical list may use, every byte is the unlisted one. -/
theorem Memory.read_below {lo a : Nat} (h : a < lo) {m : Memory} (hm : m.wfFrom lo = true) :
    m.read a = Memory.unlisted := by
  induction m generalizing lo with
  | nil => rfl
  | cons c m ih =>
    obtain ⟨b, v⟩ := c
    rw [Memory.wfFrom_cons] at hm
    rw [Memory.read_cons, if_neg (by omega)]
    exact ih (by omega) hm.2.2.2

theorem Memory.read_write_same_from {lo a : Nat} (v : Byte) {m : Memory} (hm : m.wfFrom lo = true) :
    (Memory.write m a v).read a = v := by
  induction m generalizing lo with
  | nil =>
    unfold Memory.write
    split
    · rename_i hv
      rw [hv]
      rfl
    · rw [Memory.read_cons, if_pos rfl]
  | cons c m ih =>
    obtain ⟨b, w⟩ := c
    rw [Memory.wfFrom_cons] at hm
    unfold Memory.write
    split
    · rename_i hab
      split
      · rename_i hv
        rw [hv, Memory.read_cons, if_neg (by omega)]
        exact Memory.read_below (by omega) hm.2.2.2
      · rw [Memory.read_cons, if_pos rfl]
    · split
      · rename_i _ hab
        split
        · rename_i hv
          rw [hv]
          exact Memory.read_below (by omega) hm.2.2.2
        · rw [Memory.read_cons, if_pos rfl]
      · rename_i _ hab
        rw [Memory.read_cons, if_neg hab]
        exact ih hm.2.2.2

/-- A canonical memory reads back what was written. -/
theorem Memory.read_write_same {m : Memory} (hm : m.wf = true) (a : Nat) (v : Byte) :
    (Memory.write m a v).read a = v :=
  Memory.read_write_same_from v hm

theorem Memory.wfFrom_write {lo a : Nat} (hlo : lo ≤ a) (ha : a < addressSpace) (v : Byte) {m : Memory}
    (hm : m.wfFrom lo = true) : (Memory.write m a v).wfFrom lo = true := by
  induction m generalizing lo with
  | nil =>
    unfold Memory.write
    split
    · rfl
    · rename_i hv
      rw [Memory.wfFrom_cons]
      exact ⟨hlo, ha, hv, rfl⟩
  | cons c m ih =>
    obtain ⟨b, w⟩ := c
    have hm' := (Memory.wfFrom_cons _ _ _ _).1 hm
    unfold Memory.write
    split
    · rename_i hab
      split
      · exact hm
      · rename_i hv
        rw [Memory.wfFrom_cons, Memory.wfFrom_cons]
        exact ⟨hlo, ha, hv, by omega, hm'.2⟩
    · split
      · rename_i _ hab
        subst hab
        split
        · exact Memory.wfFrom_mono (by omega) hm'.2.2.2
        · rename_i hv
          rw [Memory.wfFrom_cons]
          exact ⟨hlo, ha, hv, hm'.2.2.2⟩
      · rename_i h1 h2
        rw [Memory.wfFrom_cons]
        exact ⟨hm'.1, hm'.2.1, hm'.2.2.1, ih (by omega) hm'.2.2.2⟩

/-- A byte write keeps the canonical form. -/
theorem Memory.wf_write {m : Memory} (hm : m.wf = true) {a : Nat} (ha : a < addressSpace) (v : Byte) :
    (Memory.write m a v).wf = true :=
  Memory.wfFrom_write (Nat.zero_le _) ha v hm

/-- `MemWrite` keeps the canonical form when its bytes lie in the address space (R59). -/
theorem memWrite_wf {m : Memory} (hm : m.wf = true) {addr n : Nat} (h : addr + n ≤ addressSpace) (v : Word) :
    (memWrite m addr n v).wf = true := by
  induction n with
  | zero => exact hm
  | succ n ih => exact Memory.wf_write (ih (by omega)) (by omega) _

/-- `MemWrite` touches no byte outside `addr .. addr + n - 1` (R61). -/
theorem memWrite_read_outside (m : Memory) {addr n b : Nat} (h : b < addr ∨ addr + n ≤ b) (v : Word) :
    (memWrite m addr n v).read b = m.read b := by
  induction n with
  | zero => rfl
  | succ n ih =>
    show (Memory.write _ _ _).read b = _
    rw [Memory.read_write_ne (by omega)]
    exact ih (by omega)

/-- `MemWrite` leaves byte `k` of the value at `addr + k` (R51, R59). -/
theorem memWrite_read_inside {m : Memory} (hm : m.wf = true) {addr n k : Nat} (h : addr + n ≤ addressSpace) (hk : k < n)
    (v : Word) : (memWrite m addr n v).read (addr + k) = byteOf v k := by
  induction n with
  | zero => omega
  | succ n ih =>
    show (Memory.write _ _ _).read _ = _
    by_cases hkn : k = n
    · subst hkn
      exact Memory.read_write_same (memWrite_wf hm (by omega) v) _ _
    · rw [Memory.read_write_ne (by omega)]
      exact ih (by omega) (by omega)

/-- `MemRead` depends on no byte outside `addr .. addr + n - 1` (R61). -/
theorem memRead_congr {m m' : Memory} {addr n : Nat} (h : ∀ k, k < n → m.read (addr + k) = m'.read (addr + k)) :
    memRead m addr n = memRead m' addr n := by
  induction n with
  | zero => rfl
  | succ n ih =>
    show memRead m addr n ||| _ = memRead m' addr n ||| _
    rw [ih (fun k hk => h k (by omega)), h n (by omega)]

theorem Memory.ext_from {lo : Nat} {m m' : Memory} (hm : m.wfFrom lo = true) (hm' : m'.wfFrom lo = true)
    (h : ∀ a, a < addressSpace → m.read a = m'.read a) : m = m' := by
  induction m generalizing lo m' with
  | nil =>
    cases m' with
    | nil => rfl
    | cons c m' =>
      obtain ⟨b, w⟩ := c
      rw [Memory.wfFrom_cons] at hm'
      have := h b hm'.2.1
      rw [Memory.read_cons, if_pos rfl] at this
      exact absurd this.symm hm'.2.2.1
  | cons c m ih =>
    obtain ⟨a, v⟩ := c
    have hc := (Memory.wfFrom_cons _ _ _ _).1 hm
    cases m' with
    | nil =>
      have := h a hc.2.1
      rw [Memory.read_cons, if_pos rfl] at this
      exact absurd this hc.2.2.1
    | cons c' m' =>
      obtain ⟨b, w⟩ := c'
      have hc' := (Memory.wfFrom_cons _ _ _ _).1 hm'
      have hab : a = b := by
        rcases Nat.lt_trichotomy a b with hlt | heq | hgt
        · have := h a hc.2.1
          rw [Memory.read_cons, if_pos rfl, Memory.read_cons, if_neg (by omega),
            Memory.read_below (by omega) hc'.2.2.2] at this
          exact absurd this hc.2.2.1
        · exact heq
        · have := h b hc'.2.1
          rw [Memory.read_cons, if_neg (by omega), Memory.read_below (by omega) hc.2.2.2, Memory.read_cons,
            if_pos rfl] at this
          exact absurd this.symm hc'.2.2.1
      subst hab
      have hvw : v = w := by simpa [Memory.read_cons] using h a hc.2.1
      subst hvw
      congr 1
      refine ih hc.2.2.2 hc'.2.2.2 (fun b hb => ?_)
      by_cases hba : b = a
      · subst hba
        rw [Memory.read_below (by omega) hc.2.2.2, Memory.read_below (by omega) hc'.2.2.2]
      · simpa [Memory.read_cons, hba] using h b hb

/-- What the loader leaves is canonical (R203). -/
theorem Memory.wf_ofLoader (image : List (Word × Byte)) : (Memory.ofLoader image).wf = true := by
  have key : ∀ (l : List (Word × Byte)) (m : Memory), m.wf = true →
      (l.foldl (fun m c => m.write c.1.toNat c.2) m).wf = true := by
    intro l
    induction l with
    | nil => exact fun _ h => h
    | cons c l ih => exact fun m h => ih _ (Memory.wf_write h c.1.isLt _)
  exact key image [] rfl

end Sys2Proof.Machine
end

