-- ==== Sys2Proof/Laws/RegFile.lean ====
section
/-! SUPPORT. The laws of the register file: register 0, reading back, and the frame of a write. -/

namespace Sys2Proof.Machine

theorem RegFile.read_zero (f : RegFile) : f.read 0#5 = 0#32 := rfl

theorem RegFile.write_zero (f : RegFile) (v : Word) : f.write 0#5 v = f := rfl

theorem RegFile.read_write_same (f : RegFile) (v : Word) {i : RegId} (h : i ≠ 0#5) : (f.write i v).read i = v := by
  simp [RegFile.read, RegFile.write, h]

theorem RegFile.read_write_ne (f : RegFile) (v : Word) {i j : RegId} (h : j ≠ i) : (f.write i v).read j = f.read j := by
  unfold RegFile.read RegFile.write
  split
  · rfl
  · rename_i hj
    split
    · rfl
    · rename_i hi
      have hij : i.toNat ≠ j.toNat := fun e => h (BitVec.eq_of_toNat_eq e.symm)
      have h0 : i.toNat ≠ 0 := fun e => hi (BitVec.eq_of_toNat_eq (by simpa using e))
      have h1 : j.toNat ≠ 0 := fun e => hj (BitVec.eq_of_toNat_eq (by simpa using e))
      exact Vector.getElem_set_ne _ _ (by omega)

/-- The register file is determined by its reads of the registers 1 to 31 (R34). -/
theorem RegFile.ext_read {f g : RegFile} (h : ∀ i : RegId, i ≠ 0#5 → f.read i = g.read i) : f = g := by
  apply Vector.ext
  intro k hk
  have hn : (BitVec.ofNat 5 (k + 1)).toNat = k + 1 := by
    rw [BitVec.toNat_ofNat]
    omega
  have h0 : BitVec.ofNat 5 (k + 1) ≠ 0#5 := by
    intro e
    have := congrArg BitVec.toNat e
    simp [hn] at this
  have := h _ h0
  simpa [RegFile.read, h0, hn] using this

end Sys2Proof.Machine
end

