-- ==== Sys2Proof/Laws/State.lean ====
section
/-! SUPPORT. What each update of the state leaves in each field, and the signals of the outcome port. -/

namespace Sys2Proof.Machine

variable (s : State) (f : RegFile) (m : Memory) (o : OutPort) (q : List Delivery)

@[simp] theorem State.setRegs_regs : (s.setRegs f).regs = f := rfl
@[simp] theorem State.setRegs_mem : (s.setRegs f).mem = s.mem := rfl
@[simp] theorem State.setRegs_out : (s.setRegs f).out = s.out := rfl
@[simp] theorem State.setRegs_cfg : (s.setRegs f).cfg = s.cfg := rfl
@[simp] theorem State.setRegs_pending : (s.setRegs f).pending = s.pending := rfl

@[simp] theorem State.setMem_regs : (s.setMem m).regs = s.regs := rfl
@[simp] theorem State.setMem_mem : (s.setMem m).mem = m := rfl
@[simp] theorem State.setMem_out : (s.setMem m).out = s.out := rfl
@[simp] theorem State.setMem_cfg : (s.setMem m).cfg = s.cfg := rfl
@[simp] theorem State.setMem_pending : (s.setMem m).pending = s.pending := rfl

@[simp] theorem State.setOut_regs : (s.setOut o).regs = s.regs := rfl
@[simp] theorem State.setOut_mem : (s.setOut o).mem = s.mem := rfl
@[simp] theorem State.setOut_out : (s.setOut o).out = o := rfl
@[simp] theorem State.setOut_cfg : (s.setOut o).cfg = s.cfg := rfl
@[simp] theorem State.setOut_pending : (s.setOut o).pending = s.pending := rfl

@[simp] theorem State.setPending_regs : (s.setPending q).regs = s.regs := rfl
@[simp] theorem State.setPending_mem : (s.setPending q).mem = s.mem := rfl
@[simp] theorem State.setPending_out : (s.setPending q).out = s.out := rfl
@[simp] theorem State.setPending_cfg : (s.setPending q).cfg = s.cfg := rfl
@[simp] theorem State.setPending_pending : (s.setPending q).pending = q := rfl

variable (a : Access) (g : Accessed)

@[simp] theorem writeBack_regs : (writeBack a s g).regs = s.regs.commit (writeBackPort a.rd g) := rfl
@[simp] theorem writeBack_mem : (writeBack a s g).mem = g.memory s.mem := rfl
@[simp] theorem writeBack_out : (writeBack a s g).out = OutPort.ok g.record (writeBackReport a.rd g) := rfl
@[simp] theorem writeBack_cfg : (writeBack a s g).cfg = s.cfg := rfl
@[simp] theorem writeBack_pending : (writeBack a s g).pending = s.pending := rfl

end Sys2Proof.Machine
end

