-- ==== Sys2Proof/Laws/Ops.lean ====
section
/-! SUPPORT. Everything a transaction can do, said once: what `store` and `load` answer, in the order of R66. -/

namespace Sys2Proof.Machine

/-- The exact sum as a word: the effective address when there is no carry out. -/
def sumWord (s : State) (rs1 : RegId) (imm : Imm12) : Word := BitVec.ofNat 32 (exactSum s rs1 imm)

theorem sumWord_toNat {s : State} {rs1 : RegId} {imm : Imm12} (h : exactSum s rs1 imm < addressSpace) :
    (sumWord s rs1 imm).toNat = exactSum s rs1 imm := by
  rw [sumWord, BitVec.toNat_ofNat]
  exact Nat.mod_eq_of_lt h

/-- The state after a successful store of width `W`. -/
def stored (W : Width) (rs2 rs1 : RegId) (imm : Imm12) (s : State) : State :=
  { s with
    mem := memWrite s.mem (exactSum s rs1 imm) (widthBytes W) (storeAdapter W (s.regs.read rs2))
    out := storePort (BitVec.ofNat 3 (widthBytes W)) (exactSum s rs1 imm) (storeAdapter W (s.regs.read rs2)) }

/-- The value a load of width `W` gives. -/
def loadedValue (W : Width) (sign : Bool) (rs1 : RegId) (imm : Imm12) (s : State) : Word :=
  loadAdapter W sign (memRead s.mem (exactSum s rs1 imm) (widthBytes W))

/-- The state after a successful load of width `W`. -/
def loaded (W : Width) (sign : Bool) (rd rs1 : RegId) (imm : Imm12) (s : State) : State :=
  { s with
    regs := s.regs.write rd (loadedValue W sign rs1 imm s)
    out := loadPort (BitVec.ofNat 3 (widthBytes W)) (exactSum s rs1 imm) rd (loadedValue W sign rs1 imm s) }

/-- What a store answers, one case per outcome (R120). -/
theorem store_cases (W : Width) (rs2 rs1 : RegId) (imm : Imm12) (s : State) :
    (addressSpace ≤ exactSum s rs1 imm ∧ store W rs2 rs1 imm s = .fault .addressCalculationOverflow) ∨
    (exactSum s rs1 imm < addressSpace ∧ exactSum s rs1 imm % widthBytes W ≠ 0 ∧
      store W rs2 rs1 imm s = .fault (.unalignedWrite (sumWord s rs1 imm))) ∨
    (exactSum s rs1 imm < addressSpace ∧ exactSum s rs1 imm % widthBytes W = 0 ∧
      ¬ accessOk s rs1 imm (widthBytes W) ∧
      store W rs2 rs1 imm s = .fault (.outOfBounds (sumWord s rs1 imm))) ∨
    (accessOk s rs1 imm (widthBytes W) ∧ store W rs2 rs1 imm s = .next (stored W rs2 rs1 imm s)) := by
  unfold store transact memoryTransition
  obtain ⟨ho, he⟩ | ⟨ho, he⟩ := effectiveAddress_cases (s.regs.read rs1) (immediate imm)
  · exact .inl ⟨ho, by simp only [he]⟩
  · have hs : exactSum s rs1 imm < addressSpace := ho
    have hn := sumWord_toNat hs
    have hw : BitVec.ofNat 32 ((s.regs.read rs1).toNat + (immediate imm).toNat) = sumWord s rs1 imm := rfl
    simp only [he, hw]
    obtain ⟨hm, hr⟩ | ⟨hm, hb, hr⟩ | ⟨hm, hb, hr⟩ := memoryWrite_cases s.cfg s.mem (sumWord s rs1 imm) W (s.regs.read rs2)
    all_goals rw [hn] at hm
    · exact .inr (.inl ⟨hs, hm, by simp [hr]⟩)
    · rw [hn] at hb
      exact .inr (.inr (.inl ⟨hs, hm, fun h => hb ⟨h.2.2.1, h.2.2.2⟩, by simp [hr]⟩))
    · rw [hn] at hb
      refine .inr (.inr (.inr ⟨⟨hs, hm, hb⟩, ?_⟩))
      rw [hn] at hr
      simp only [hr, if_true]
      rfl

/-- What a load answers, one case per outcome (R140). -/
theorem load_cases (W : Width) (sign : Bool) (rd rs1 : RegId) (imm : Imm12) (s : State) :
    (addressSpace ≤ exactSum s rs1 imm ∧ load W sign rd rs1 imm s = .fault .addressCalculationOverflow) ∨
    (exactSum s rs1 imm < addressSpace ∧ exactSum s rs1 imm % widthBytes W ≠ 0 ∧
      load W sign rd rs1 imm s = .fault (.unalignedRead (sumWord s rs1 imm))) ∨
    (exactSum s rs1 imm < addressSpace ∧ exactSum s rs1 imm % widthBytes W = 0 ∧
      ¬ accessOk s rs1 imm (widthBytes W) ∧
      load W sign rd rs1 imm s = .fault (.outOfBounds (sumWord s rs1 imm))) ∨
    (accessOk s rs1 imm (widthBytes W) ∧ load W sign rd rs1 imm s = .next (loaded W sign rd rs1 imm s)) := by
  unfold load transact memoryTransition
  obtain ⟨ho, he⟩ | ⟨ho, he⟩ := effectiveAddress_cases (s.regs.read rs1) (immediate imm)
  · exact .inl ⟨ho, by simp only [he]⟩
  · have hs : exactSum s rs1 imm < addressSpace := ho
    have hn := sumWord_toNat hs
    have hw : BitVec.ofNat 32 ((s.regs.read rs1).toNat + (immediate imm).toNat) = sumWord s rs1 imm := rfl
    simp only [he, hw]
    obtain ⟨hm, hr⟩ | ⟨hm, hb, hr⟩ | ⟨hm, hb, hr⟩ := memoryRead_cases s.cfg s.mem (sumWord s rs1 imm) W
    all_goals rw [hn] at hm
    · exact .inr (.inl ⟨hs, hm, by simp [hr]⟩)
    · rw [hn] at hb
      exact .inr (.inr (.inl ⟨hs, hm, fun h => hb ⟨h.2.2.1, h.2.2.2⟩, by simp [hr]⟩))
    · rw [hn] at hb
      refine .inr (.inr (.inr ⟨⟨hs, hm, hb⟩, ?_⟩))
      rw [hn] at hr
      simp only [hr, Bool.false_eq_true, if_false, Host.Outcome.next.injEq]
      unfold loaded loadedValue loadPort writeBack OutPort.ok writeBackReport
      by_cases hrd : rd = 0#5 <;> simp [hrd, State.setOut, State.setMem, State.setRegs, Accessed.memory, Accessed.record,
        RegFile.commit, writeBackPort, sumWord]

end Sys2Proof.Machine
end

