-- ==== Sys2Proof/Laws/Exec.lean ====
section
/-! SUPPORT. Everything `exec` and a step can answer, for all eight instructions at once. -/

namespace Sys2Proof.Machine

/-- A load instruction is the shared `load` at its width and signedness. -/
theorem exec_eq_load {i : Instr} (h : isStore i = false) (s : State) :
    exec i s = load (width i) (signed i) ((destReg i).getD 0#5) (baseReg i) (rawImm i) s := by
  cases i <;> first | rfl | cases h

/-- A store instruction is the shared `store` at its width. -/
theorem exec_eq_store {i : Instr} (h : isStore i = true) (s : State) :
    exec i s = store (width i) ((dataReg i).getD 0#5) (baseReg i) (rawImm i) s := by
  cases i <;> first | rfl | cases h

/-- The state after an instruction that succeeds. -/
def succeeded (i : Instr) (s : State) : State :=
  if isStore i then stored (width i) ((dataReg i).getD 0#5) (baseReg i) (rawImm i) s
  else loaded (width i) (signed i) ((destReg i).getD 0#5) (baseReg i) (rawImm i) s

/-- The alignment fault of an instruction's family at an address (R172). -/
def unaligned (i : Instr) (a : Word) : Fault := if isStore i then .unalignedWrite a else .unalignedRead a

/-- What `exec` answers, one case per outcome, in the order of R66. -/
theorem exec_cases (i : Instr) (s : State) :
    (addressSpace ≤ exactSum s (baseReg i) (rawImm i) ∧ exec i s = .fault .addressCalculationOverflow) ∨
    (exactSum s (baseReg i) (rawImm i) < addressSpace ∧ exactSum s (baseReg i) (rawImm i) % widthBytes (width i) ≠ 0 ∧
      exec i s = .fault (unaligned i (sumWord s (baseReg i) (rawImm i)))) ∨
    (exactSum s (baseReg i) (rawImm i) < addressSpace ∧ exactSum s (baseReg i) (rawImm i) % widthBytes (width i) = 0 ∧
      ¬ accessOk s (baseReg i) (rawImm i) (widthBytes (width i)) ∧
      exec i s = .fault (.outOfBounds (sumWord s (baseReg i) (rawImm i)))) ∨
    (accessOk s (baseReg i) (rawImm i) (widthBytes (width i)) ∧ exec i s = .next (succeeded i s)) := by
  unfold succeeded unaligned
  cases h : isStore i with
  | true => simpa only [exec_eq_store h, if_true] using store_cases _ _ _ _ s
  | false => simpa only [exec_eq_load h, Bool.false_eq_true, if_false] using load_cases _ _ _ _ _ s

/-- Which case a successful instruction is in. -/
theorem exec_next {i : Instr} {s t : State} (h : exec i s = .next t) :
    accessOk s (baseReg i) (rawImm i) (widthBytes (width i)) ∧ t = succeeded i s := by
  obtain ⟨_, e⟩ | ⟨_, _, e⟩ | ⟨_, _, _, e⟩ | ⟨hok, e⟩ := exec_cases i s <;> rw [e] at h <;> cases h
  exact ⟨hok, rfl⟩

/-- No instruction is refused. -/
theorem exec_not_refused (i : Instr) (s : State) (r : Refusal) : exec i s ≠ .refused r := by
  obtain ⟨_, e⟩ | ⟨_, _, e⟩ | ⟨_, _, _, e⟩ | ⟨_, e⟩ := exec_cases i s <;> rw [e] <;> exact fun h => by cases h

/-- The whole access lies in the address space. -/
theorem accessOk_end {s : State} {rs1 : RegId} {imm : Imm12} {W : Width} (h : accessOk s rs1 imm (widthBytes W)) :
    exactSum s rs1 imm + widthBytes W ≤ addressSpace :=
  aligned_end_le h.1 W rfl h.2.1

/-- What presenting an operand set does, one case per outcome. -/
theorem present_operands {p : PortIn} {i : Instr} (hi : Instr.ofPort p = some i) (s : State) :
    (∃ t, exec i s = .next t ∧ present (.operands p) s = .next t) ∨
    (∃ f, exec i s = .fault f ∧ present (.operands p) s = receiveFault s f) := by
  simp only [present, hi]
  cases h : exec i s with
  | next t => exact .inl ⟨t, rfl, rfl⟩
  | fault f => exact .inr ⟨f, rfl, rfl⟩
  | refused r => exact absurd h (exec_not_refused i s r)

/-- Every way a step goes on: idle; a success; a fault that the loop's policy lets the run go on after (R181). -/
theorem step_next {s t : State} (h : step s = .next t) :
    (s.pending = [] ∧ t = s) ∨
    (∃ p rest i, s.pending = .operands p :: rest ∧ Instr.ofPort p = some i ∧
      exec i (s.setPending rest) = .next t) ∨
    (∃ p rest i f, s.pending = .operands p :: rest ∧ Instr.ofPort p = some i ∧
      exec i (s.setPending rest) = .fault f ∧
      (t = (s.setPending rest).setOut (OutPort.faulted f) ∨
        t = ((s.setPending rest).setOut (OutPort.faulted f)).setPending s.cfg.handler)) := by
  unfold step runNext at h
  split at h
  · rename_i hp
    cases h
    exact .inl ⟨hp, rfl⟩
  · rename_i d rest hp
    cases d with
    | malformed w => cases h
    | operands p =>
      cases hi : Instr.ofPort p with
      | none => simp [present, hi] at h
      | some i =>
        obtain ⟨u, he, hpres⟩ | ⟨f, he, hpres⟩ := present_operands hi (s.setPending rest)
        · rw [hpres] at h
          cases h
          exact .inr (.inl ⟨p, rest, i, hp, hi, he⟩)
        · refine .inr (.inr ⟨p, rest, i, f, hp, hi, he, ?_⟩)
          rw [hpres] at h
          unfold receiveFault at h
          split at h <;> cases h
          · exact .inl rfl
          · exact .inr rfl

end Sys2Proof.Machine
end

