-- ==== Sys2Proof/Laws/PerInstr.lean ====
section
/-! SUPPORT. Per-instruction laws. `PortRoundTrip`: the operand set of an instruction on CORE's port has a legal pair and selects that very instruction (R41, R84). -/

namespace Sys2Proof.Laws.PortRoundTrip

def Statement (i : Instr) : Prop := i.toPort.wellFormed = true ∧ Instr.ofPort i.toPort = some i

theorem lb (rd rs1 : RegId) (imm : Imm12) : Statement (.lb rd rs1 imm) := ⟨rfl, rfl⟩
theorem lh (rd rs1 : RegId) (imm : Imm12) : Statement (.lh rd rs1 imm) := ⟨rfl, rfl⟩
theorem lw (rd rs1 : RegId) (imm : Imm12) : Statement (.lw rd rs1 imm) := ⟨rfl, rfl⟩
theorem lbu (rd rs1 : RegId) (imm : Imm12) : Statement (.lbu rd rs1 imm) := ⟨rfl, rfl⟩
theorem lhu (rd rs1 : RegId) (imm : Imm12) : Statement (.lhu rd rs1 imm) := ⟨rfl, rfl⟩
theorem sb (rs2 rs1 : RegId) (imm : Imm12) : Statement (.sb rs2 rs1 imm) := ⟨rfl, rfl⟩
theorem sh (rs2 rs1 : RegId) (imm : Imm12) : Statement (.sh rs2 rs1 imm) := ⟨rfl, rfl⟩
theorem sw (rs2 rs1 : RegId) (imm : Imm12) : Statement (.sw rs2 rs1 imm) := ⟨rfl, rfl⟩

end Sys2Proof.Laws.PortRoundTrip
end

