-- ==== Sys2Proof/Laws/Width.lean ====
section
/-! SUPPORT. The width adapter and the transfers at each width, as bytes (R53, R59 to R63). -/

namespace Sys2Proof.Machine

theorem storeAdapter_byte (v : Word) : storeAdapter .byte v = (v.extractLsb' 0 8).setWidth 32 := by
  ext k hk
  simp [storeAdapter]

theorem storeAdapter_half (v : Word) : storeAdapter .half v = (v.extractLsb' 0 16).setWidth 32 := by
  ext k hk
  simp [storeAdapter]

/-- Truncation to the width loses no byte the store writes (R62). -/
theorem byteOf_storeAdapter {W : Width} {k : Nat} (h : k < widthBytes W) (v : Word) :
    byteOf (storeAdapter W v) k = byteOf v k := by
  ext j hj
  cases W with
  | byte =>
    simp only [widthBytes] at h
    simp [byteOf, storeAdapter, show 8 * k + j < 32 by omega, show 8 * k + j < 8 by omega]
  | half =>
    simp only [widthBytes] at h
    simp [byteOf, storeAdapter, show 8 * k + j < 32 by omega, show 8 * k + j < 16 by omega]
  | word => rfl

/-- The truncated datum as a number (R62). -/
theorem storeAdapter_toNat (W : Width) (v : Word) : (storeAdapter W v).toNat = v.toNat % 2 ^ (8 * widthBytes W) := by
  have := v.isLt
  cases W <;> simp [storeAdapter, widthBytes] <;> omega

theorem memRead_one (m : Memory) (a : Nat) : memRead m a 1 = (m.read a).setWidth 32 := by
  simp [memRead]

theorem byte_getLsbD_high (b : Byte) {j : Nat} (h : 8 ≤ j) : b.getLsbD j = false :=
  BitVec.getLsbD_of_ge b j h

theorem memRead_two (m : Memory) (a : Nat) : memRead m a 2 = (m.read (a + 1) ++ m.read a).setWidth 32 := by
  ext k hk
  rw [BitVec.getElem_setWidth, BitVec.getLsbD_append]
  simp only [memRead]
  by_cases h : k < 8
  · simp [h]
  · simp [h, byte_getLsbD_high _ (show 8 ≤ k by omega)]

theorem memRead_four (m : Memory) (a : Nat) :
    memRead m a 4 = m.read (a + 3) ++ m.read (a + 2) ++ m.read (a + 1) ++ m.read a := by
  ext k hk
  rw [← BitVec.getLsbD_eq_getElem, ← BitVec.getLsbD_eq_getElem]
  show _ = BitVec.getLsbD (w := 8 + 8 + 8 + 8) (m.read (a + 3) ++ m.read (a + 2) ++ m.read (a + 1) ++ m.read a) k
  rw [BitVec.getLsbD_append, BitVec.getLsbD_append, BitVec.getLsbD_append, Nat.sub_sub, Nat.sub_sub]
  simp only [memRead, BitVec.getLsbD_or, BitVec.getLsbD_shiftLeft, BitVec.getLsbD_setWidth, BitVec.getLsbD_zero]
  by_cases h0 : k < 8
  · simp [h0, hk, show k < 16 by omega, show k < 24 by omega]
  · have z0 := byte_getLsbD_high (m.read a) (show 8 ≤ k by omega)
    by_cases h1 : k < 16
    · simp [h0, hk, z0, show k - 8 < 8 by omega, h1, show k < 24 by omega, show k - 8 < 32 by omega]
    · have z1 := byte_getLsbD_high (m.read (a + 1)) (show 8 ≤ k - 8 by omega)
      by_cases h2 : k < 24
      · simp [h0, hk, z0, z1, show ¬ k - 8 < 8 by omega, h1, h2, show k - 16 < 8 by omega,
          show k - 16 < 32 by omega]
      · have z2 := byte_getLsbD_high (m.read (a + 2)) (show 8 ≤ k - 16 by omega)
        simp [h0, hk, z0, z1, z2, show ¬ k - 8 < 8 by omega, h1, h2, show ¬ k - 16 < 8 by omega,
          show k - 24 < 32 by omega]

end Sys2Proof.Machine
end

