-- ==== Sys2Proof/Tests/Slice0.lean ====
section
/-! SUPPORT. The model's own tests: decoding, well-formedness, one step each from the spec's vectors (spec/95_test_vectors.md), and a witness for the hypotheses of every statement that has some. -/

namespace Sys2Proof.Tests

open Sys2Proof Sys2Proof.Machine

/-! ### Decoding: words written out bit by bit from the layouts of R82 and R83, and the words of 95 §2.6 and §2.7 -/

theorem test_decode_lb : decodeWord (0b000000000101#12 ++ 0b00110#5 ++ 0b000#3 ++ 0b00111#5 ++ 0b0000011#7) =
    .ok (.lb 7#5 6#5 0x005#12) := by decide

theorem test_decode_lh : decodeWord (0b100000000000#12 ++ 0b11111#5 ++ 0b001#3 ++ 0b00001#5 ++ 0b0000011#7) =
    .ok (.lh 1#5 31#5 0x800#12) := by decide

theorem test_decode_lw : decodeWord (0b111111111100#12 ++ 0b00001#5 ++ 0b010#3 ++ 0b00011#5 ++ 0b0000011#7) =
    .ok (.lw 3#5 1#5 0xFFC#12) := by decide

theorem test_decode_lbu : decodeWord (0b000000000001#12 ++ 0b10000#5 ++ 0b100#3 ++ 0b00010#5 ++ 0b0000011#7) =
    .ok (.lbu 2#5 16#5 0x001#12) := by decide

theorem test_decode_lhu : decodeWord (0b000000000010#12 ++ 0b00001#5 ++ 0b101#3 ++ 0b11111#5 ++ 0b0000011#7) =
    .ok (.lhu 31#5 1#5 0x002#12) := by decide

theorem test_decode_sb : decodeWord (0b0111111#7 ++ 0b00010#5 ++ 0b00001#5 ++ 0b000#3 ++ 0b11111#5 ++ 0b0100011#7) =
    .ok (.sb 2#5 1#5 0x7FF#12) := by decide

theorem test_decode_sh : decodeWord (0b1111111#7 ++ 0b00010#5 ++ 0b00110#5 ++ 0b001#3 ++ 0b11100#5 ++ 0b0100011#7) =
    .ok (.sh 2#5 6#5 0xFFC#12) := by decide

theorem test_decode_sw : decodeWord (0b0000000#7 ++ 0b00010#5 ++ 0b00101#5 ++ 0b010#3 ++ 0b00011#5 ++ 0b0100011#7) =
    .ok (.sw 2#5 5#5 0x003#12) := by decide

theorem test_decode_bytes :
    decode [0x23#8, 0x91#8, 0x20#8, 0x00#8, 0xAA#8] = .ok (.sh 2#5 1#5 0x002#12, [0xAA#8]) := by decide

theorem test_decode_truncated : decode [0x23#8, 0x91#8, 0x20#8] = .error .truncated := by decide

theorem test_decode_other_opcode : decodeWord 0x00000013#32 = .error (.opcode 0b0010011#7) := by decide

/-- LD and SD of the 64-bit base ISA are no instructions here (R90). -/
theorem test_decode_other_variants :
    decodeWord 0x00003003#32 = .error (.variant false 0b011#3) ∧
    decodeWord 0x00003023#32 = .error (.variant true 0b011#3) := by decide

theorem test_encode_words :
    encode (.sb 3#5 6#5 0xFFC#12) = 0xFE330E23#32 ∧ encode (.lw 8#5 10#5 0x00C#12) = 0x00C52403#32 := by decide

/-! ### Well-formedness: an ill-formed term for each check -/

theorem test_wellFormed_refuses_load_pair : (PortIn.mk false 0b110#3 1#5 0#5 2#5 0x000#12).wellFormed = false := by decide

theorem test_wellFormed_refuses_store_pair : (PortIn.mk true 0b100#3 1#5 2#5 0#5 0x000#12).wellFormed = false := by decide

theorem test_wellFormed_accepts_legal_pair : (PortIn.mk true 0b010#3 1#5 2#5 0#5 0x000#12).wellFormed = true := by decide

theorem test_offset_out_of_range :
    offsetInRange 2048 = false ∧ offsetInRange (-2049) = false ∧ immOfOffset 2048 = none ∧
    immOfOffset (-2048) = some 0x800#12 := by decide

/-- The canonical form refuses a rising order broken, an entry equal to an unlisted byte, and an address too high. -/
theorem test_memory_form :
    Memory.wf [(5, 1#8), (4, 1#8)] = false ∧ Memory.wf [(4, 0#8)] = false ∧ Memory.wf [(4294967296, 1#8)] = false ∧
    Memory.wf [(4, 1#8), (4294967295, 1#8)] = true := by decide

/-! ### Assembler text (R93, R94) -/

theorem test_asm_text :
    asmText (.lw 3#5 1#5 0xFFC#12) = "lw x3, -4(x1)" ∧ regOfName "fp" = some 8#5 ∧ regOfName "t6" = some 31#5 ∧
    regOfName "x32" = none := by decide

/-! ### One step each -/

/-- A state with the given registers set, the others 0, and the given bytes in memory. -/
def start (cfg : Config) (regs : List (RegId × Word)) (mem : List (Word × Byte)) : State :=
  State.launch cfg (regs.foldl (fun f r => f.write r.1 r.2) (Vector.replicate 31 0#32)) mem

/-- The extent of 95 §2.3. -/
def small : Config := { Config.default with memLo := 0x1000#32, memHi := 0x1FFF#32 }

/-- The start of 95 §2.6. -/
def storeStart : State :=
  start Config.default [(1#5, 0x00001000#32), (2#5, 0x12345678#32), (3#5, 0xFFFF8000#32), (4#5, 0xFFFFFFFF#32),
    (5#5, 0x00001001#32), (6#5, 0x00000002#32)] []

/-- The start of 95 §2.7, with the byte of its last row. -/
def loadStart : State :=
  start Config.default [(1#5, 0x00001000#32), (7#5, 0x00001001#32)]
    [(0x1000#32, 0x80#8), (0x1001#32, 0x7F#8), (0x1002#32, 0x01#8), (0x1003#32, 0xFF#8), (0x1004#32, 0x78#8),
      (0x1005#32, 0x56#8), (0x1006#32, 0x34#8), (0x1007#32, 0x12#8), (0xFFFFF800#32, 0xC3#8)]

/-- What one step with this word leaves to look at: memory, one register, the record and the report. -/
def oneStep (s : State) (w : Nat) (i : RegId) : Option (Memory × Word × List Word × List Word) :=
  match step (s.withFetchWord 32 w) with
  | .next t => some (t.mem, t.regs.read i, [t.out.recWidth.setWidth 32, t.out.recAddr, t.out.recValue],
      if t.out.wbValid then [t.out.wbReg.setWidth 32, t.out.wbValue] else [])
  | .fault _ => none
  | .refused _ => none

/-- The fault of one step with this word. -/
def oneFault (s : State) (w : Nat) : Option Fault :=
  match step (s.withFetchWord 32 w) with
  | .next _ => none
  | .fault f => some f
  | .refused _ => none

theorem test_sb_high_address : oneStep storeStart 0xFE330E23 3#5 =
    some ([], 0xFFFF8000#32, [1#32, 0xFFFFFFFE#32, 0x00000000#32], []) := by decide

theorem test_sb_keeps_low_byte : oneStep storeStart 0x7E208FA3 2#5 =
    some ([(0x17FF, 0x78#8)], 0x12345678#32, [1#32, 0x000017FF#32, 0x00000078#32], []) := by decide

theorem test_sh_keeps_low_half : oneStep storeStart 0x00309123 3#5 =
    some ([(0x1003, 0x80#8)], 0xFFFF8000#32, [2#32, 0x00001002#32, 0x00008000#32], []) := by decide

theorem test_sh_misaligned : oneFault storeStart 0x002090A3 = some (.unalignedWrite 0x00001001#32) := by decide

theorem test_sw_little_endian : oneStep storeStart 0x0022A1A3 2#5 =
    some ([(0x1004, 0x78#8), (0x1005, 0x56#8), (0x1006, 0x34#8), (0x1007, 0x12#8)], 0x12345678#32,
      [4#32, 0x00001004#32, 0x12345678#32], []) := by decide

theorem test_sw_negative_offset : oneFault storeStart 0xFE20AE23 = some .addressCalculationOverflow := by decide

theorem test_lb_sign : (oneStep loadStart 0x00008183 3#5).map Prod.snd =
    some (0xFFFFFF80#32, [1#32, 0x00001000#32, 0xFFFFFF80#32], [3#32, 0xFFFFFF80#32]) := by decide

theorem test_lb_top_of_memory : (oneStep loadStart 0x80000183 3#5).map (fun r => r.2.1) = some 0xFFFFFFC3#32 := by decide

theorem test_lh_sign : (oneStep loadStart 0x00209183 3#5).map (fun r => r.2.1) = some 0xFFFFFF01#32 := by decide

theorem test_lh_misaligned : oneFault loadStart 0x00109183 = some (.unalignedRead 0x00001001#32) := by decide

theorem test_lw_base_is_destination : (oneStep loadStart 0x0040A083 1#5).map Prod.snd =
    some (0x12345678#32, [4#32, 0x00001004#32, 0x12345678#32], [1#32, 0x12345678#32]) := by decide

theorem test_lw_to_register_zero : (oneStep loadStart 0x0040A003 0#5).map Prod.snd =
    some (0x00000000#32, [4#32, 0x00001004#32, 0x12345678#32], []) := by decide

theorem test_lbu_zero_extends : (oneStep loadStart 0x0000C183 3#5).map (fun r => r.2.1) = some 0x00000080#32 := by decide

theorem test_lbu_out_of_extent :
    oneFault (start small [(1#5, 0x1FFC#32)] []) 0x0040C183 = some (.outOfBounds 0x00002000#32) := by decide

theorem test_lhu_zero_extends : (oneStep loadStart 0x0020D183 3#5).map (fun r => r.2.1) = some 0x0000FF01#32 := by decide

/-- Alignment is checked before bounds (95 §2.3). -/
theorem test_lhu_alignment_first :
    oneFault (start small [(1#5, 0x1FFC#32)] []) 0x0030D183 = some (.unalignedRead 0x00001FFF#32) := by decide

/-- With `continue` the fault goes to the port and the run goes on (95 §2.8, R181). -/
theorem test_continue_reports_fault :
    (match step ({ storeStart with cfg := { Config.default with policy := .recordAndContinue } }.withFetchWord 32 0x0020A123) with
      | .next t => some (t.out.faultKind, t.out.faultAddr, t.out.recValid)
      | .fault _ => none
      | .refused _ => none) = some (3#3, 0x00001002#32, false) := by decide

/-- A program's first instruction can run from reset: LB and SB with base register 0. -/
theorem test_first_step_from_reset :
    (match step (State.reset.withFetchWord 32 0x00000003) with | .next _ => true | .fault _ => false | .refused _ => false) = true ∧
    (match step (State.reset.withFetchWord 32 0x00000023) with | .next _ => true | .fault _ => false | .refused _ => false) = true := by
  decide

/-! ### Witnesses: a concrete state and operands for the hypotheses of each statement -/

theorem witness_EncodeInvertsDecode : decodeWord 0x00209123#32 = .ok (.sh 2#5 1#5 0x002#12) := by decide

theorem witness_TableRowsSelectVariants :
    (0xFFFF8F83#32 : Word) &&& 0x0000707F#32 = 0x00000003#32 ∧ (0x00009183#32 : Word) &&& 0x0000707F#32 = 0x00001003#32 ∧
    (0x0000A183#32 : Word) &&& 0x0000707F#32 = 0x00002003#32 ∧ (0x0000C183#32 : Word) &&& 0x0000707F#32 = 0x00004003#32 ∧
    (0x0000D183#32 : Word) &&& 0x0000707F#32 = 0x00005003#32 ∧ (0xFFFF8FA3#32 : Word) &&& 0x0000707F#32 = 0x00000023#32 ∧
    (0x00209023#32 : Word) &&& 0x0000707F#32 = 0x00001023#32 ∧ (0x0020A023#32 : Word) &&& 0x0000707F#32 = 0x00002023#32 := by
  decide

/-- Each illegal value of funct3, in a word of each family. -/
theorem witness_IllegalVariants_words :
    (∀ f ∈ [0b011#3, 0b110#3, 0b111#3], (encodeI 0#12 0#5 f 0#5).extractLsb' 0 7 = 0b0000011#7 ∧
      (encodeI 0#12 0#5 f 0#5).extractLsb' 12 3 = f) ∧
    (∀ f ∈ [0b011#3, 0b100#3, 0b101#3, 0b110#3, 0b111#3], (encodeS 0#12 0#5 0#5 f).extractLsb' 0 7 = 0b0100011#7 ∧
      (encodeS 0#12 0#5 0#5 f).extractLsb' 12 3 = f) := by decide

theorem witness_IllegalVariants_noInstruction : ∀ i, decodeWord 0x00000013#32 ≠ .ok i := by
  intro i h
  rw [test_decode_other_opcode] at h
  cases h

theorem witness_IllegalVariants_port :
    (storeStart.setPending [.operands (PortIn.mk true 0b111#3 1#5 2#5 0#5 0#12)]).pending =
      .operands (PortIn.mk true 0b111#3 1#5 2#5 0#5 0#12) :: [] := rfl

theorem witness_WidthAndSignFromFunct3 :
    Instr.ofPort (PortIn.mk false 0b100#3 1#5 0#5 3#5 0#12) = some (.lbu 3#5 1#5 0#12) ∧
    Instr.ofPort (PortIn.mk false 0b001#3 1#5 0#5 3#5 0#12) = some (.lh 3#5 1#5 0#12) ∧
    Instr.ofPort (PortIn.mk true 0b010#3 1#5 2#5 0#5 0#12) = some (.sw 2#5 1#5 0#12) := by decide

/-- Both signs at their boundaries. -/
theorem witness_OffsetRange : (0x7FF#12).getLsbD 11 = false ∧ (0x800#12).getLsbD 11 = true := by decide

/-- Each clause at a boundary (95 §2.1). -/
theorem witness_AdderOverflowCases :
    (0xFFFFF801#32).toNat > 0xFFFFFFFF - (0x7FF#12).toNat ∧ (0xFFFFF800#32).toNat ≤ 0xFFFFFFFF - (0x7FF#12).toNat ∧
    (0x00000800#32).toNat ≥ 4096 - (0x800#12).toNat ∧ (0x000007FF#32).toNat < 4096 - (0x800#12).toNat ∧
    (start Config.default [(2#5, 0x1000#32)] []).regs.read 2#5 = 0x1000#32 := by decide

theorem witness_OverflowFaultsExactly :
    2 ^ 32 ≤ exactSum storeStart 4#5 0x001#12 ∧ ¬ 2 ^ 32 ≤ exactSum storeStart 4#5 0x000#12 := by decide

theorem witness_MisalignmentFaultsExactly :
    (exactSum loadStart 7#5 0x000#12 < 2 ^ 32 ∧ exactSum loadStart 7#5 0x000#12 % 2 ≠ 0) ∧
    (exactSum loadStart 7#5 0x001#12 < 2 ^ 32 ∧ exactSum loadStart 7#5 0x001#12 % 4 ≠ 0) ∧
    width (.lb 3#5 7#5 0x000#12) = .byte ∧ width (.sb 3#5 7#5 0x000#12) = .byte := by decide

/-- A state whose base register is the given number, with the extent of 95 §2.3. -/
def based (base : Word) : State := start small [(1#5, base), (2#5, 0x11223344#32)] []

/-- Just below, at both edges of, and just above the extent. -/
theorem witness_OutOfBoundsFaultsExactly :
    exec (.lb 3#5 1#5 0#12) (based 0x0FFF#32) = .fault (.outOfBounds 0x0FFF#32) ∧
    accessOk (based 0x1000#32) 1#5 0#12 1 ∧ accessOk (based 0x1FFF#32) 1#5 0#12 1 ∧
    exec (.lb 3#5 1#5 0#12) (based 0x2000#32) = .fault (.outOfBounds 0x2000#32) := ⟨rfl, by decide, by decide, rfl⟩

theorem witness_DefaultExtentHasNoOutOfBounds :
    storeStart.cfg.memLo = 0x00000000#32 ∧ storeStart.cfg.memHi = 0xFFFFFFFF#32 := by decide

/-- An inverted extent. -/
def inverted : State := start { Config.default with memLo := 0x1001#32, memHi := 0x1000#32 } [(1#5, 0x1000#32)] []

theorem witness_InvertedExtentAllowsNoAccess :
    inverted.cfg.memHi.toNat < inverted.cfg.memLo.toNat ∧ exactSum inverted 1#5 0#12 < 2 ^ 32 ∧
    exactSum inverted 1#5 0#12 % widthBytes (width (.lb 3#5 1#5 0#12)) = 0 := by decide

/-- One state for each clause: overflow, misaligned load, misaligned store, out of extent, success. -/
theorem witness_FirstFailingCheckDecides :
    2 ^ 32 ≤ exactSum (based 0x1004#32) 1#5 0xFFC#12 ∧
    (exactSum (based 0x0FFD#32) 1#5 0#12 < 2 ^ 32 ∧ exactSum (based 0x0FFD#32) 1#5 0#12 % 4 ≠ 0 ∧
      isStore (.lw 3#5 1#5 0#12) = false ∧ isStore (.sw 2#5 1#5 0#12) = true) ∧
    (exactSum (based 0x0FFE#32) 1#5 0#12 % 2 = 0 ∧
      ¬ ((based 0x0FFE#32).cfg.memLo.toNat ≤ exactSum (based 0x0FFE#32) 1#5 0#12 ∧
        exactSum (based 0x0FFE#32) 1#5 0#12 + 2 - 1 ≤ (based 0x0FFE#32).cfg.memHi.toNat)) ∧
    accessOk (based 0x1FFC#32) 1#5 0#12 4 := by decide

/-- SB, LB and LBU: success at both edges of the extent, overflow, and out of the extent on both sides. -/
theorem witness_ByteMeanings :
    accessOk (based 0x1000#32) 1#5 0#12 1 ∧ accessOk (based 0x1FFF#32) 1#5 0#12 1 ∧
    2 ^ 32 ≤ exactSum (based 0xFFFFFFFF#32) 1#5 0x001#12 ∧
    (exactSum (based 0x0FFF#32) 1#5 0#12 < 2 ^ 32 ∧ ¬ (0x1000 ≤ exactSum (based 0x0FFF#32) 1#5 0#12)) ∧
    (exactSum (based 0x2000#32) 1#5 0#12 < 2 ^ 32 ∧ ¬ (exactSum (based 0x2000#32) 1#5 0#12 ≤ 0x1FFF)) ∧
    (based 0x1000#32).cfg.memLo.toNat = 0x1000 ∧ (based 0x1000#32).cfg.memHi.toNat = 0x1FFF := by decide

/-- SH, LH and LHU: success at both edges, overflow, an odd address, and out of the extent on both sides. -/
theorem witness_HalfMeanings :
    accessOk (based 0x1000#32) 1#5 0#12 2 ∧ accessOk (based 0x1FFE#32) 1#5 0#12 2 ∧
    2 ^ 32 ≤ exactSum (based 0xFFFFFFFF#32) 1#5 0x001#12 ∧
    (exactSum (based 0x1FFF#32) 1#5 0#12 < 2 ^ 32 ∧ exactSum (based 0x1FFF#32) 1#5 0#12 % 2 = 1) ∧
    (exactSum (based 0x0FFE#32) 1#5 0#12 % 2 = 0 ∧ exactSum (based 0x0FFE#32) 1#5 0#12 < (based 0x0FFE#32).cfg.memLo.toNat) ∧
    (exactSum (based 0x2000#32) 1#5 0#12 % 2 = 0 ∧
      exactSum (based 0x2000#32) 1#5 0#12 + 1 > (based 0x2000#32).cfg.memHi.toNat) := by decide

/-- SW and LW: success at both edges, overflow, an address no multiple of 4, and out of the extent on both sides. -/
theorem witness_WordMeanings :
    accessOk (based 0x1000#32) 1#5 0#12 4 ∧ accessOk (based 0x1FFC#32) 1#5 0#12 4 ∧
    accessOk (start Config.default [(1#5, 0xFFFFFFFC#32)] []) 1#5 0#12 4 ∧
    2 ^ 32 ≤ exactSum (based 0xFFFFFFFF#32) 1#5 0x001#12 ∧
    (exactSum (based 0x1FFE#32) 1#5 0#12 < 2 ^ 32 ∧ exactSum (based 0x1FFE#32) 1#5 0#12 % 4 ≠ 0) ∧
    (exactSum (based 0x0FFC#32) 1#5 0#12 % 4 = 0 ∧ exactSum (based 0x0FFC#32) 1#5 0#12 < (based 0x0FFC#32).cfg.memLo.toNat) ∧
    (exactSum (based 0x2000#32) 1#5 0#12 % 4 = 0 ∧
      exactSum (based 0x2000#32) 1#5 0#12 + 3 > (based 0x2000#32).cfg.memHi.toNat) := by decide

theorem witness_StoreFrame :
    isStore (.sw 2#5 1#5 0#12) = true ∧ (∃ t, exec (.sw 2#5 1#5 0#12) (based 0x1FFC#32) = .next t) ∧
    effectiveAddress ((based 0x1FFC#32).regs.read 1#5) (immediate 0#12) = .ok 0x1FFC#32 := ⟨rfl, ⟨_, rfl⟩, rfl⟩

theorem witness_LoadFrame :
    isStore (.lhu 3#5 1#5 0x002#12) = false ∧ (∃ t, exec (.lhu 3#5 1#5 0x002#12) loadStart = .next t) ∧
    destReg (.lhu 3#5 1#5 0x002#12) ≠ some 1#5 ∧ destReg (.lhu 0#5 1#5 0x002#12) = some 0#5 ∧
    (∃ t, exec (.lhu 0#5 1#5 0x002#12) loadStart = .next t) := ⟨rfl, ⟨_, rfl⟩, by decide, rfl, ⟨_, rfl⟩⟩

theorem witness_LoadToRegisterZero :
    Instr.lw ∈ [Instr.lb, Instr.lh, Instr.lw, Instr.lbu, Instr.lhu] ∧
    (∃ t, exec (.lw 3#5 1#5 0x004#12) loadStart = .next t) ∧
    exec (.lw 3#5 7#5 0#12) loadStart = .fault (.unalignedRead 0x1001#32) := ⟨by simp, ⟨_, rfl⟩, rfl⟩

/-- Two states that differ only outside the access. -/
theorem witness_LoadReadsOnlyItsBytes :
    isStore (.lb 3#5 1#5 0#12) = false ∧ loadStart.regs = (hostMemWrite 0x1001#32 0xEE#8 loadStart).regs ∧
    loadStart.cfg = (hostMemWrite 0x1001#32 0xEE#8 loadStart).cfg ∧
    loadStart.mem.read 0x1000 = (hostMemWrite 0x1001#32 0xEE#8 loadStart).mem.read 0x1000 ∧
    loadStart.mem ≠ (hostMemWrite 0x1001#32 0xEE#8 loadStart).mem ∧
    (∃ t, exec (.lb 3#5 1#5 0#12) loadStart = .next t) :=
  ⟨rfl, rfl, rfl, by decide, by decide, ⟨_, rfl⟩⟩

theorem witness_MemoryAfterEveryInstruction :
    loadStart.mem.wf = true ∧ (∃ t, exec (.sh 7#5 1#5 0x004#12) loadStart = .next t) ∧
    (∃ t, exec (.lb 3#5 1#5 0x000#12) loadStart = .next t) := ⟨by decide, ⟨_, rfl⟩, ⟨_, rfl⟩⟩

theorem witness_StoreThenLoadReturnsDatum :
    storeStart.mem.wf = true ∧ accessOk storeStart 1#5 0x003#12 1 ∧ accessOk storeStart 1#5 0x002#12 2 ∧
    accessOk storeStart 1#5 0x004#12 4 ∧ (3#5 : RegId) ≠ 0#5 := by decide

/-- The last half-word and the last byte inside the stored word, through another base register. -/
theorem witness_MixedWidthLoadsSeeBytesInPlace :
    storeStart.mem.wf = true ∧ accessOk storeStart 1#5 0x004#12 4 ∧
    ∃ t, exec (.sw 2#5 1#5 0x004#12) storeStart = .next t ∧
      exactSum t 5#5 0x005#12 = exactSum storeStart 1#5 0x004#12 + 2 * 1 ∧
      exactSum t 5#5 0x006#12 = exactSum storeStart 1#5 0x004#12 + 3 :=
  ⟨by decide, by decide, _, rfl, by decide, by decide⟩

theorem witness_RegisterFileReadsAndWrites : (31#5 : RegId) ≠ 0#5 ∧ (1#5 : RegId) ≠ 31#5 := by decide

theorem witness_StateIsItsRegistersAndBytes : storeStart.mem.wf = true ∧ loadStart.mem.wf = true := by decide

/-- A state whose next transaction succeeds, one whose next faults under `continue`, and one that is idle. -/
theorem witness_StepKeepsInvariant :
    (loadStart.withFetchWord 32 0x0040A183).Inv ∧ (∃ t, step (loadStart.withFetchWord 32 0x0040A183) = .next t) ∧
    ({ loadStart with cfg := { Config.default with policy := .recordAndContinue } }.withFetchWord 32 0x0020A183).Inv ∧
    (∃ t, step ({ loadStart with cfg := { Config.default with policy := .recordAndContinue } }.withFetchWord 32 0x0020A183) =
      .next t) := ⟨by decide, ⟨_, rfl⟩, by decide, ⟨_, rfl⟩⟩

theorem witness_StepKeepsParameters : ∃ t, step (storeStart.withFetchWord 32 0x0020A023) = .next t := ⟨_, rfl⟩

theorem witness_LaunchStateFollowsParameters :
    (([(0x1000#32, 0x80#8), (0xFFFFFFFF#32, 0x01#8)] : List (Word × Byte)).map Prod.fst).Nodup ∧
    (0xFFFFFFFF#32, 0x01#8) ∈ ([(0x1000#32, 0x80#8), (0xFFFFFFFF#32, 0x01#8)] : List (Word × Byte)) ∧
    (31#5 : RegId).toNat - 1 < 31 ∧ (31#5 : RegId) ≠ 0#5 := by decide

theorem witness_HostPortActsDirectly : loadStart.mem.wf = true := by decide

theorem witness_MeaningsRefineGenericPipeline :
    Instr.ofPort (PortIn.mk false 0b010#3 1#5 31#5 3#5 0x004#12) = some (.lw 3#5 1#5 0x004#12) ∧
    ∃ t, exec (.lw 3#5 1#5 0x004#12) loadStart = .next t := ⟨rfl, ⟨_, rfl⟩⟩

/-- A store's record, a load's record and report, and the loads and stores that report no register. -/
theorem witness_RecordAndReportOfEverySuccess :
    (∃ t, exec (.sb 2#5 1#5 0x003#12) storeStart = .next t) ∧ dataReg (.sb 2#5 1#5 0x003#12) = some 2#5 ∧
    destReg (.sb 2#5 1#5 0x003#12) = none ∧
    (∃ t, exec (.lb 3#5 1#5 0#12) loadStart = .next t) ∧ dataReg (.lb 3#5 1#5 0#12) = none ∧
    destReg (.lb 3#5 1#5 0#12) = some 3#5 ∧ (3#5 : RegId) ≠ 0#5 ∧
    (∃ t, exec (.lb 0#5 1#5 0#12) loadStart = .next t) ∧ destReg (.lb 0#5 1#5 0#12) = some 0#5 :=
  ⟨⟨_, rfl⟩, rfl, rfl, ⟨_, rfl⟩, rfl, rfl, by decide, ⟨_, rfl⟩, rfl⟩

theorem witness_UnusedFieldHasNoEffect :
    (PortIn.mk true 0b010#3 1#5 2#5 0#5 0#12).store = true ∧ (PortIn.mk false 0b010#3 1#5 0#5 3#5 0#12).store = false :=
  ⟨rfl, rfl⟩

/-- The operand set of `lw x3, off(x1)`. -/
def lwPort (off : Imm12) : PortIn := PortIn.mk false 0b010#3 1#5 0#5 3#5 off

theorem witness_StepRunsPresentedInstruction :
    (loadStart.setPending [.operands (lwPort 4#12), .operands (lwPort 2#12)]).pending =
      .operands (lwPort 4#12) :: [.operands (lwPort 2#12)] ∧
    Instr.ofPort (lwPort 4#12) = some (.lw 3#5 1#5 4#12) ∧
    (∃ t, exec (.lw 3#5 1#5 4#12) (loadStart.setPending [.operands (lwPort 2#12)]) = .next t) ∧
    exec (.lw 3#5 1#5 2#12) loadStart = .fault (.unalignedRead 0x1002#32) := ⟨rfl, rfl, ⟨_, rfl⟩, rfl⟩

theorem witness_StepRunsDecodedWord :
    decodeTableWord 32 0x0040A183 = some (.lw 3#5 1#5 4#12) ∧ (∃ t, exec (.lw 3#5 1#5 4#12) loadStart = .next t) ∧
    decodeTableWord 32 0x0020A183 = some (.lw 3#5 1#5 2#12) ∧
    exec (.lw 3#5 1#5 2#12) loadStart = .fault (.unalignedRead 0x1002#32) := ⟨by decide, ⟨_, rfl⟩, by decide, rfl⟩

/-- A state whose next transaction faults, for a policy. -/
def faulting (policy : FaultPolicy) : State :=
  { loadStart with
    cfg := { Config.default with policy := policy, handler := [.operands (lwPort 4#12)] }
    pending := [.operands (lwPort 2#12), .operands (lwPort 0#12)] }

/-- Each of the three policies. -/
theorem witness_LoopFaultPolicies :
    ∀ policy ∈ [FaultPolicy.halt, .recordAndContinue, .trap],
      (faulting policy).pending = .operands (lwPort 2#12) :: [.operands (lwPort 0#12)] ∧
      Instr.ofPort (lwPort 2#12) = some (.lw 3#5 1#5 2#12) ∧
      exec (.lw 3#5 1#5 2#12) { faulting policy with pending := [.operands (lwPort 0#12)] } =
        .fault (.unalignedRead 0x1002#32) ∧
      (faulting policy).cfg.policy = policy := by
  intro policy h
  simp only [List.mem_cons, List.not_mem_nil, or_false] at h
  obtain rfl | rfl | rfl := h <;> exact ⟨rfl, rfl, rfl, rfl⟩

theorem witness_FaultLeavesStateUnchanged :
    (∃ t, step (faulting .recordAndContinue) = .next t ∧ t.out.fault = true) ∧
    (∃ t, step (faulting .trap) = .next t ∧ t.out.fault = true) := ⟨⟨_, rfl, rfl⟩, ⟨_, rfl, rfl⟩⟩

theorem witness_IdleKeepsState : loadStart.pending = [] := rfl

/-- Two states that differ only in bytes outside the extent, just below and just above it, whose next step succeeds. -/
theorem witness_BytesOutsideExtentAreIsolated :
    let s := (based 0x1FFC#32).withFetchWord 32 0x0020A023
    let t := hostMemWrite 0x0FFF#32 0xEE#8 (hostMemWrite 0x2000#32 0xEE#8 s)
    s.mem.wf = true ∧ t.mem.wf = true ∧ s.mem ≠ t.mem ∧ agreeInExtent s t ∧ (∃ s', step s = .next s') := by
  refine ⟨by decide, by decide, by decide, ⟨rfl, rfl, rfl, rfl, fun a h1 h2 => ?_⟩, ⟨_, rfl⟩⟩
  have h1 : 4096 ≤ a := h1
  have h2 : a ≤ 8191 := h2
  show Memory.unlisted = Memory.read [(0x0FFF, 0xEE#8), (0x2000, 0xEE#8)] a
  simp only [Memory.read]
  rw [if_neg (by omega), if_neg (by omega)]

end Sys2Proof.Tests
end

/-! ## Scope: the parameters of a run (R8, R28) -/

namespace Sys2Proof.Machine

@[simp] theorem stored_cfg (W : Width) (rs2 rs1 : RegId) (imm : Imm12) (s : State) :
    (stored W rs2 rs1 imm s).cfg = s.cfg := rfl

@[simp] theorem loaded_cfg (W : Width) (sign : Bool) (rd rs1 : RegId) (imm : Imm12) (s : State) :
    (loaded W sign rd rs1 imm s).cfg = s.cfg := rfl

@[simp] theorem succeeded_cfg (i : Instr) (s : State) : (succeeded i s).cfg = s.cfg := by
  unfold succeeded
  split
  · exact stored_cfg ..
  · exact loaded_cfg ..

theorem exec_next_cfg {i : Instr} {s t : State} (h : exec i s = .next t) : t.cfg = s.cfg := by
  obtain ⟨-, rfl⟩ := exec_next h
  exact succeeded_cfg i s

/-- Settles O36, along the ways a step goes on: idle, a success, and a fault under `recordAndContinue` or `trap`. -/
theorem stepKeepsParameters : Obligations.StepKeepsParameters := by
  intro s t h
  obtain ⟨-, rfl⟩ | ⟨_, rest, _, -, -, hexec⟩ | ⟨_, rest, _, f, -, -, -, rfl | rfl⟩ := step_next h
  · rfl
  · calc
      t.cfg = (s.setPending rest).cfg := exec_next_cfg hexec
      _ = s.cfg := State.setPending_cfg ..
  · simp only [State.setOut_cfg, State.setPending_cfg]
  · simp only [State.setOut_cfg, State.setPending_cfg]

end Sys2Proof.Machine

/-! ## State: the register file and the bytes (R22, R23, R34, R49) -/

namespace Sys2Proof.Machine

theorem RegFile.read_of_ne_zero (f : RegFile) {i : RegId} (h : i ≠ 0#5) : f.read i = f[i.toNat - 1]'(regSlot_lt i) :=
  if_neg h

/-- Register read after register write, both cases in one (R22, R23). -/
theorem RegFile.read_write (f : RegFile) (i j : RegId) (v : Word) :
    (f.write i v).read j = if j = i ∧ i ≠ 0#5 then v else f.read j := by
  by_cases hji : j = i
  · subst hji
    by_cases hj : j = 0#5
    · subst hj
      simp [RegFile.write_zero]
    · simp [hj, RegFile.read_write_same]
  · simp [hji, RegFile.read_write_ne]

/-- Byte read after byte write, both cases in one (R59, R60). -/
theorem Memory.read_write {m : Memory} (hm : m.wf = true) (a b : Nat) (v : Byte) :
    (m.write a v).read b = if b = a then v else m.read b := by
  by_cases hba : b = a
  · rw [if_pos hba, hba, Memory.read_write_same hm]
  · rw [if_neg hba, Memory.read_write_ne hba]

/-- Settles O32, from the laws of the register file. -/
theorem registerFileReadsAndWrites : Obligations.RegisterFileReadsAndWrites := fun f _ _ v =>
  ⟨f.read_zero, f.write_zero v, fun _ hi => f.read_of_ne_zero hi, fun hi => f.read_write_same v hi,
    fun hji => f.read_write_ne v hji⟩

/-- Settles O33: the register file is determined by its reads, and a canonical memory by its bytes. -/
theorem stateIsItsRegistersAndBytes : Obligations.StateIsItsRegistersAndBytes := by
  intro s t hs ht
  constructor
  · rintro ⟨hregs, hmem⟩
    exact ⟨fun i _ => by rw [hregs], fun a _ => by rw [hmem]⟩
  · rintro ⟨hregs, hbytes⟩
    exact ⟨RegFile.ext_read hregs, Memory.ext_from hs ht hbytes⟩

/-- Settles O38: the host port's writes are the plain register and byte writes. -/
theorem hostPortActsDirectly : Obligations.HostPortActsDirectly := by
  intro s i j v a c b hs
  have hmem : hostMemRead c (hostMemWrite a b s) = if c = a then b else hostMemRead c s := by
    simpa only [hostMemRead, hostMemWrite, State.setMem_mem, BitVec.toNat_inj] using
      Memory.read_write hs a.toNat c.toNat b
  exact ⟨RegFile.read_write s.regs i j v, hmem, rfl, rfl, rfl, rfl, rfl, rfl⟩

end Sys2Proof.Machine

/-! ## State: what a load leaves unchanged, the phases and the unused field (R31, R32, R89, R108, R110) -/

namespace Sys2Proof.Machine

theorem succeeded_of_store {i : Instr} (h : isStore i = true) (s : State) :
    succeeded i s = stored (width i) ((dataReg i).getD 0#5) (baseReg i) (rawImm i) s :=
  if_pos h

theorem succeeded_of_load {i : Instr} (h : isStore i = false) (s : State) :
    succeeded i s = loaded (width i) (signed i) ((destReg i).getD 0#5) (baseReg i) (rawImm i) s := by
  rw [succeeded, h, if_neg Bool.false_ne_true]

@[simp] theorem loaded_regs (W : Width) (sign : Bool) (rd rs1 : RegId) (imm : Imm12) (s : State) :
    (loaded W sign rd rs1 imm s).regs = s.regs.write rd (loadedValue W sign rs1 imm s) := rfl

/-- A load has a destination. -/
theorem exists_destReg_of_load {i : Instr} (h : isStore i = false) : ∃ rd, destReg i = some rd := by
  cases i with
  | lb rd _ _ | lh rd _ _ | lw rd _ _ | lbu rd _ _ | lhu rd _ _ => exact ⟨rd, rfl⟩
  | sb _ _ _ | sh _ _ _ | sw _ _ _ => cases h

/-- Settles O26: a load's next state is `loaded`, which replaces the register file, by one write, and the port. -/
theorem loadFrame : Obligations.LoadFrame := by
  intro i s t hi h
  obtain ⟨-, rfl⟩ := exec_next h
  obtain ⟨rd, hrd⟩ := exists_destReg_of_load hi
  rw [succeeded_of_load hi, hrd]
  refine ⟨rfl, rfl, rfl, fun r hr => ?_, fun h0 => ?_⟩ <;> rw [loaded_regs, Option.getD_some]
  · exact RegFile.read_write_ne _ _ fun e => hr (congrArg some e.symm)
  · obtain rfl : rd = 0#5 := Option.some.inj h0
    exact RegFile.write_zero _ _

/-- Each instruction is the one transaction on its own operand set (R40, R102). -/
theorem exec_eq_transact (i : Instr) (s : State) : exec i s = transact (accessOf i) s := by
  cases i <;> rfl

/-- The family alone decides which phase the memory transition leads to (R32). -/
theorem memoryTransition_phase {a : Access} {s : State} {g : Accessed} (h : memoryTransition a s = .ok g) :
    g.phase = if a.store then .memoryWritten else .memoryRead := by
  unfold memoryTransition at h
  split at h
  · cases h
  · split at h
    · rename_i hstore
      rw [if_pos hstore]
      split at h <;> cases h
      rfl
    · rename_i hstore
      rw [if_neg hstore]
      split at h <;> cases h
      rfl

/-- Settles O40: `exec` and `phases` both follow how the memory transition ends. -/
theorem phasesOfATransaction : Obligations.PhasesOfATransaction := by
  intro i s
  rw [exec_eq_transact]
  cases h : memoryTransition (accessOf i) s with
  | error f => exact .inr (.inr ⟨⟨f, by rw [transact, h]⟩, by rw [phases, h]⟩)
  | ok g =>
    have hnext : ∃ t, transact (accessOf i) s = .next t := ⟨writeBack (accessOf i) s g, by rw [transact, h]⟩
    have hphases : phases (accessOf i) s = [.decoded, g.phase, .writtenBack] := by rw [phases, h]
    have hphase : g.phase = if isStore i then .memoryWritten else .memoryRead := memoryTransition_phase h
    cases hi : isStore i with
    | true => exact .inl ⟨hnext, rfl, by rw [hphases, hphase, hi, if_pos rfl]⟩
    | false => exact .inr (.inl ⟨hnext, rfl, by rw [hphases, hphase, hi, if_neg Bool.false_ne_true]⟩)

/-- A store's variant selection does not look at `rd` (R31). -/
theorem ofPort_store_rd {p : PortIn} (h : p.store = true) (x : RegId) :
    Instr.ofPort { p with rd := x } = Instr.ofPort p := by
  obtain ⟨st, f3, rs1, rs2, rd, imm⟩ := p
  cases h
  obtain rfl | rfl | rfl | rfl | rfl | rfl | rfl | rfl := funct3_cases f3 <;> rfl

/-- A load's variant selection does not look at `rs2` (R31). -/
theorem ofPort_load_rs2 {p : PortIn} (h : p.store = false) (x : RegId) :
    Instr.ofPort { p with rs2 := x } = Instr.ofPort p := by
  obtain ⟨st, f3, rs1, rs2, rd, imm⟩ := p
  cases h
  obtain rfl | rfl | rfl | rfl | rfl | rfl | rfl | rfl := funct3_cases f3 <;> rfl

/-- Two operand sets with the same pair that select the same instruction, or both none, end alike. -/
theorem present_operands_congr {p q : PortIn} (hsel : Instr.ofPort p = Instr.ofPort q) (hstore : p.store = q.store)
    (hfunct3 : p.funct3 = q.funct3) (s : State) : present (.operands p) s = present (.operands q) s := by
  simp only [present, hsel, hstore, hfunct3]

/-- Settles O43: variant selection drops the unused field before anything is run. -/
theorem unusedFieldHasNoEffect : Obligations.UnusedFieldHasNoEffect := fun _ x s =>
  ⟨fun h => present_operands_congr (ofPort_store_rd h x) rfl rfl s,
    fun h => present_operands_congr (ofPort_load_rs2 h x) rfl rfl s⟩

end Sys2Proof.Machine

/-! ## State: the step and the loop's fault policy (R40, R80, R181) -/

namespace Sys2Proof.Machine

/-- A step with something pending presents the first of it, which is no longer pending then (R40). -/
theorem step_of_pending {s : State} {d : Delivery} {rest : List Delivery} (h : s.pending = d :: rest) :
    step s = present d (s.setPending rest) := by
  rw [step, runNext, h]

theorem step_of_idle {s : State} (h : s.pending = []) : step s = .next s := by
  rw [step, runNext, h]

theorem present_of_exec_next {p : PortIn} {i : Instr} {s t : State} (hi : Instr.ofPort p = some i)
    (h : exec i s = .next t) : present (.operands p) s = .next t := by
  simp only [present, hi, h]

theorem present_of_exec_fault {p : PortIn} {i : Instr} {s : State} {f : Fault} (hi : Instr.ofPort p = some i)
    (h : exec i s = .fault f) : present (.operands p) s = receiveFault s f := by
  simp only [present, hi, h]

theorem receiveFault_of_halt {s : State} (h : s.cfg.policy = .halt) (f : Fault) : receiveFault s f = .fault f := by
  rw [receiveFault, h]

theorem receiveFault_of_recordAndContinue {s : State} (h : s.cfg.policy = .recordAndContinue) (f : Fault) :
    receiveFault s f = .next (s.setOut (OutPort.faulted f)) := by
  rw [receiveFault, h]

theorem receiveFault_of_trap {s : State} (h : s.cfg.policy = .trap) (f : Fault) :
    receiveFault s f = .next ((s.setOut (OutPort.faulted f)).setPending s.cfg.handler) := by
  rw [receiveFault, h]

/-- Settles O44: what is presented is run by `exec`, which never refuses. -/
theorem stepRunsPresentedInstruction : Obligations.StepRunsPresentedInstruction := by
  intro s p rest i hp hi
  rw [step_of_pending hp]
  exact ⟨fun _ h => present_of_exec_next hi h, fun _ h => present_of_exec_fault hi h, exec_not_refused i _⟩

/-- A table word that decodes to an instruction is delivered as an operand set that selects it (R80, R84). -/
theorem deliveryOfWord_of_decode {w : Nat} {i : Instr} (h : decodeTableWord 32 w = some i) :
    ∃ p, deliveryOfWord (tableWord 32 w) = .operands p ∧ Instr.ofPort p = some i := by
  simp only [decodeTableWord, bytesOfWord, decode, wordOfBytes_bytesOfWord, decodeWord] at h
  unfold deliveryOfWord
  cases hd : decodePort (tableWord 32 w) with
  | error e => simp [hd] at h
  | ok p =>
    cases hi : Instr.ofPort p with
    | none => simp [hd, hi] at h
    | some j =>
      simp only [hd, hi, Option.some.injEq] at h
      exact ⟨p, rfl, by rw [hi, h]⟩

/-- Settles O45: placing the word puts its operand set first, and a step runs what is first. -/
theorem stepRunsDecodedWord : Obligations.StepRunsDecodedWord := by
  intro s w i hw
  obtain ⟨p, hdel, hi⟩ := deliveryOfWord_of_decode hw
  have hpending : (s.withFetchWord 32 w).pending = .operands p :: s.pending.drop 1 := by
    rw [State.withFetchWord, State.setPending_pending, hdel]
  exact stepRunsPresentedInstruction (s.withFetchWord 32 w) p (s.pending.drop 1) i hpending hi

/-- Settles O46: the step hands the fault to the loop, and each policy answers as `receiveFault` says. -/
theorem loopFaultPolicies : Obligations.LoopFaultPolicies := by
  intro s p rest i f hp hi hexec
  have hstep : step s = receiveFault (s.setPending rest) f :=
    (step_of_pending hp).trans (present_of_exec_fault hi hexec)
  rw [hstep]
  exact ⟨fun h => receiveFault_of_halt (s := s.setPending rest) h f,
    fun h => receiveFault_of_recordAndContinue (s := s.setPending rest) h f,
    fun h => receiveFault_of_trap (s := s.setPending rest) h f⟩

end Sys2Proof.Machine

/-! ## State: the invariant of the machine (R30, R42, R175) -/

namespace Sys2Proof.Machine

theorem consistent_faulted (f : Fault) : (OutPort.faulted f).consistent := by
  cases f <;> simp [OutPort.consistent, OutPort.faulted, Fault.code, Fault.addr]

/-- The width signal of a record is 1, 2 or 4 (R106). -/
theorem widthSignal_cases (W : Width) :
    BitVec.ofNat 3 (widthBytes W) = 1#3 ∨ BitVec.ofNat 3 (widthBytes W) = 2#3 ∨
      BitVec.ofNat 3 (widthBytes W) = 4#3 := by
  cases W <;> decide

theorem consistent_storePort (W : Width) (a : Nat) (v : Word) :
    (storePort (BitVec.ofNat 3 (widthBytes W)) a v).consistent := by
  simp [OutPort.consistent, storePort, widthSignal_cases]

theorem consistent_loadPort (W : Width) (a : Nat) (rd : RegId) (v : Word) :
    (loadPort (BitVec.ofNat 3 (widthBytes W)) a rd v).consistent := by
  by_cases hrd : rd = 0#5 <;> simp [OutPort.consistent, loadPort, widthSignal_cases, hrd]

/-- A successful instruction keeps the canonical form and drives the port as the spec allows. -/
theorem succeeded_inv {i : Instr} {s : State} (hok : accessOk s (baseReg i) (rawImm i) (widthBytes (width i)))
    (hs : s.mem.wf = true) : (succeeded i s).Inv := by
  cases hi : isStore i with
  | true =>
    rw [succeeded_of_store hi]
    exact ⟨memWrite_wf hs (accessOk_end hok) _, consistent_storePort _ _ _⟩
  | false =>
    rw [succeeded_of_load hi]
    exact ⟨hs, consistent_loadPort _ _ _ _⟩

/-- Settles O34, along the ways a step goes on: idle, a success, and a fault under `recordAndContinue` or `trap`. -/
theorem stepKeepsInvariant : Obligations.StepKeepsInvariant := by
  rintro s t ⟨hwf, hport⟩ h
  obtain ⟨-, rfl⟩ | ⟨_, _, _, -, -, hexec⟩ | ⟨_, _, _, f, -, -, -, rfl | rfl⟩ := step_next h
  · exact ⟨hwf, hport⟩
  · obtain ⟨hok, rfl⟩ := exec_next hexec
    exact succeeded_inv hok hwf
  · exact ⟨hwf, consistent_faulted f⟩
  · exact ⟨hwf, consistent_faulted f⟩

end Sys2Proof.Machine

/-! ## State: the bytes outside the extent (R30, R57, R66, R111) -/

namespace Sys2Proof.Machine

/-- The fault of the first of the three checks that fails, in the order of R66, if one does. It looks at no byte of
memory (`firstFailure_congr`). -/
def firstFailure (i : Instr) (s : State) : Option Fault :=
  if addressSpace ≤ exactSum s (baseReg i) (rawImm i) then some .addressCalculationOverflow
  else if exactSum s (baseReg i) (rawImm i) % widthBytes (width i) ≠ 0 then
    some (unaligned i (sumWord s (baseReg i) (rawImm i)))
  else if ¬ accessOk s (baseReg i) (rawImm i) (widthBytes (width i)) then
    some (.outOfBounds (sumWord s (baseReg i) (rawImm i)))
  else none

/-- `exec` faults with the first check that fails, or succeeds, one case for each. -/
theorem exec_firstFailure (i : Instr) (s : State) :
    (∃ f, firstFailure i s = some f ∧ exec i s = .fault f) ∨
    (firstFailure i s = none ∧ accessOk s (baseReg i) (rawImm i) (widthBytes (width i)) ∧
      exec i s = .next (succeeded i s)) := by
  obtain ⟨ho, e⟩ | ⟨ho, hm, e⟩ | ⟨ho, hm, hb, e⟩ | ⟨hok, e⟩ := exec_cases i s
  · exact .inl ⟨_, if_pos ho, e⟩
  · exact .inl ⟨_, by rw [firstFailure, if_neg (by omega), if_pos hm], e⟩
  · exact .inl ⟨_, by rw [firstFailure, if_neg (by omega), if_neg (by omega), if_pos hb], e⟩
  · refine .inr ⟨?_, hok, e⟩
    rw [firstFailure, if_neg (Nat.not_le.2 hok.1), if_neg (not_not.2 hok.2.1), if_neg (not_not.2 hok)]

theorem exactSum_congr {s t : State} (h : s.regs = t.regs) (rs1 : RegId) (imm : Imm12) :
    exactSum s rs1 imm = exactSum t rs1 imm := by
  rw [exactSum, exactSum, h]

/-- The checks depend on the registers and the extent only (R54, R56, R57). -/
theorem firstFailure_congr {s t : State} (hregs : s.regs = t.regs) (hcfg : s.cfg = t.cfg) (i : Instr) :
    firstFailure i s = firstFailure i t := by
  simp only [firstFailure, accessOk, sumWord, exactSum_congr hregs, hcfg]

/-- Two memories with the same bytes outside the extent. -/
def sameOutside (cfg : Config) (m m' : Memory) : Prop :=
  ∀ a, a < cfg.memLo.toNat ∨ cfg.memHi.toNat < a → m'.read a = m.read a

theorem sameOutside_refl (cfg : Config) (m : Memory) : sameOutside cfg m m := fun _ _ => rfl

section Agreement

variable {s t : State}

theorem agreeInExtent.regs_eq (h : agreeInExtent s t) : s.regs = t.regs := h.1

theorem agreeInExtent.cfg_eq (h : agreeInExtent s t) : s.cfg = t.cfg := h.2.2.1

theorem agreeInExtent.pending_eq (h : agreeInExtent s t) : s.pending = t.pending := h.2.2.2.1

theorem agreeInExtent.setPending (h : agreeInExtent s t) (q : List Delivery) :
    agreeInExtent (s.setPending q) (t.setPending q) := by
  obtain ⟨hregs, hout, hcfg, -, hbytes⟩ := h
  exact ⟨hregs, hout, hcfg, rfl, hbytes⟩

theorem agreeInExtent.setOut (h : agreeInExtent s t) (o : OutPort) : agreeInExtent (s.setOut o) (t.setOut o) := by
  obtain ⟨hregs, -, hcfg, hpending, hbytes⟩ := h
  exact ⟨hregs, rfl, hcfg, hpending, hbytes⟩

/-- A store inside the extent leaves every byte outside it. -/
theorem stored_sameOutside {W : Width} {rs1 : RegId} {imm : Imm12} (hok : accessOk s rs1 imm (widthBytes W))
    (rs2 : RegId) : sameOutside s.cfg s.mem (stored W rs2 rs1 imm s).mem := by
  obtain ⟨-, -, hlo, hhi⟩ := hok
  exact fun a ha => memWrite_read_outside s.mem (by omega) _

theorem succeeded_sameOutside {i : Instr} (hok : accessOk s (baseReg i) (rawImm i) (widthBytes (width i))) :
    sameOutside s.cfg s.mem (succeeded i s).mem := by
  cases hi : isStore i with
  | true =>
    rw [succeeded_of_store hi]
    exact stored_sameOutside hok _
  | false =>
    rw [succeeded_of_load hi]
    exact sameOutside_refl _ _

/-- `MemWrite` of the same bytes keeps two canonical memories equal wherever they were (R59, R61). -/
theorem memWrite_read_congr {m m' : Memory} (hm : m.wf = true) (hm' : m'.wf = true) {addr n a : Nat}
    (hend : addr + n ≤ addressSpace) (h : m.read a = m'.read a) (v : Word) :
    (memWrite m addr n v).read a = (memWrite m' addr n v).read a := by
  by_cases ha : addr ≤ a ∧ a < addr + n
  · obtain ⟨k, rfl⟩ := Nat.exists_eq_add_of_le ha.1
    rw [memWrite_read_inside hm hend (by omega), memWrite_read_inside hm' hend (by omega)]
  · rw [memWrite_read_outside m (by omega), memWrite_read_outside m' (by omega), h]

theorem stored_agree (h : agreeInExtent s t) (hs : s.mem.wf = true) (ht : t.mem.wf = true) {W : Width}
    {rs1 : RegId} {imm : Imm12} (hok : accessOk s rs1 imm (widthBytes W)) (rs2 : RegId) :
    agreeInExtent (stored W rs2 rs1 imm s) (stored W rs2 rs1 imm t) := by
  obtain ⟨hregs, -, hcfg, hpending, hbytes⟩ := h
  unfold stored
  rw [← exactSum_congr hregs, ← hregs]
  exact ⟨rfl, rfl, hcfg, hpending, fun a hlo hhi =>
    memWrite_read_congr hs ht (accessOk_end hok) (hbytes a hlo hhi) _⟩

/-- A load inside the extent reads the same value in both states (R57, R61). -/
theorem loadedValue_agree (h : agreeInExtent s t) {W : Width} {rs1 : RegId} {imm : Imm12}
    (hok : accessOk s rs1 imm (widthBytes W)) (sign : Bool) :
    loadedValue W sign rs1 imm s = loadedValue W sign rs1 imm t := by
  obtain ⟨hregs, -, -, -, hbytes⟩ := h
  obtain ⟨-, -, hlo, hhi⟩ := hok
  rw [loadedValue, loadedValue, ← exactSum_congr hregs]
  rw [memRead_congr fun k hk => hbytes _ (by omega) (by omega)]

theorem loaded_agree (h : agreeInExtent s t) {W : Width} {rs1 : RegId} {imm : Imm12}
    (hok : accessOk s rs1 imm (widthBytes W)) (sign : Bool) (rd : RegId) :
    agreeInExtent (loaded W sign rd rs1 imm s) (loaded W sign rd rs1 imm t) := by
  have hv := loadedValue_agree h hok sign
  obtain ⟨hregs, -, hcfg, hpending, hbytes⟩ := h
  unfold loaded
  rw [← exactSum_congr hregs, ← hregs, ← hv]
  exact ⟨rfl, rfl, hcfg, hpending, hbytes⟩

theorem succeeded_agree (h : agreeInExtent s t) (hs : s.mem.wf = true) (ht : t.mem.wf = true) {i : Instr}
    (hok : accessOk s (baseReg i) (rawImm i) (widthBytes (width i))) :
    agreeInExtent (succeeded i s) (succeeded i t) := by
  cases hi : isStore i with
  | true =>
    rw [succeeded_of_store hi, succeeded_of_store hi]
    exact stored_agree h hs ht hok _
  | false =>
    rw [succeeded_of_load hi, succeeded_of_load hi]
    exact loaded_agree h hok _ _

end Agreement

/-- Two steps, from memories `m` and `n`, that end alike: the same fault, the same refusal, or next states that agree
and have left the bytes outside the extent. -/
inductive EndAlike (cfg : Config) (m n : Memory) : Outcome → Outcome → Prop where
  | next {s t : State} (agree : agreeInExtent s t) (left : sameOutside cfg m s.mem) (right : sameOutside cfg n t.mem) :
      EndAlike cfg m n (.next s) (.next t)
  | fault (f : Fault) : EndAlike cfg m n (.fault f) (.fault f)
  | refused (r : Refusal) : EndAlike cfg m n (.refused r) (.refused r)

section Isolation

variable {s t : State} (h : agreeInExtent s t)

include h

theorem receiveFault_endAlike (f : Fault) : EndAlike s.cfg s.mem t.mem (receiveFault s f) (receiveFault t f) := by
  have hcfg := h.cfg_eq
  cases hp : s.cfg.policy with
  | halt =>
    rw [receiveFault_of_halt hp, receiveFault_of_halt (hcfg ▸ hp)]
    exact .fault f
  | recordAndContinue =>
    rw [receiveFault_of_recordAndContinue hp, receiveFault_of_recordAndContinue (hcfg ▸ hp)]
    exact .next (h.setOut _) (sameOutside_refl _ _) (sameOutside_refl _ _)
  | trap =>
    rw [receiveFault_of_trap hp, receiveFault_of_trap (hcfg ▸ hp), ← hcfg]
    exact .next ((h.setOut _).setPending _) (sameOutside_refl _ _) (sameOutside_refl _ _)

variable (hs : s.mem.wf = true) (ht : t.mem.wf = true)

include hs ht

theorem exec_endAlike (i : Instr) : EndAlike s.cfg s.mem t.mem (exec i s) (exec i t) := by
  have hsame := firstFailure_congr h.regs_eq h.cfg_eq i
  obtain ⟨f, hf, hes⟩ | ⟨hf, hoks, hes⟩ := exec_firstFailure i s <;>
    obtain ⟨g, hg, het⟩ | ⟨hg, hokt, het⟩ := exec_firstFailure i t <;> rw [hes, het]
  · obtain rfl : f = g := by simpa [hf, hg] using hsame
    exact .fault f
  · simp [hf, hg] at hsame
  · simp [hf, hg] at hsame
  · exact .next (succeeded_agree h hs ht hoks) (succeeded_sameOutside hoks) (h.cfg_eq ▸ succeeded_sameOutside hokt)

theorem present_endAlike (d : Delivery) : EndAlike s.cfg s.mem t.mem (present d s) (present d t) := by
  cases d with
  | malformed w => exact .refused _
  | operands p =>
    cases hi : Instr.ofPort p with
    | none =>
      simp only [present, hi]
      exact .refused _
    | some i =>
      have hexec := exec_endAlike h hs ht i
      simp only [present, hi]
      generalize exec i s = x at hexec ⊢
      generalize exec i t = y at hexec ⊢
      cases hexec with
      | next agree left right => exact .next agree left right
      | fault f => exact receiveFault_endAlike h f
      | refused r => exact .refused r

theorem step_endAlike : EndAlike s.cfg s.mem t.mem (step s) (step t) := by
  have hpending := h.pending_eq
  cases hp : s.pending with
  | nil =>
    rw [step_of_idle hp, step_of_idle (hpending ▸ hp)]
    exact .next h (sameOutside_refl _ _) (sameOutside_refl _ _)
  | cons d rest =>
    rw [step_of_pending hp, step_of_pending (hpending ▸ hp)]
    exact present_endAlike (h.setPending rest) hs ht d

end Isolation

/-- Settles O49: the two steps end alike, as the checks look at no byte and every access lies inside the extent. -/
theorem bytesOutsideExtentAreIsolated : Obligations.BytesOutsideExtentAreIsolated := by
  intro s t hs ht h
  have halike := step_endAlike h hs ht
  generalize step s = x at halike ⊢
  generalize step t = y at halike ⊢
  cases halike with
  | fault f => simp
  | refused r => simp
  | next agree left right =>
    refine ⟨by simp, by simp, fun s' e => ?_⟩
    cases e
    exact ⟨_, rfl, agree, fun a ha => ⟨left a ha, right a ha⟩⟩

end Sys2Proof.Machine

/-! ## Memory: the effective-address adder (R54, R55, R86) -/

namespace Sys2Proof.Machine

theorem effectiveAddress_overflow {base off : Word} (h : addressSpace ≤ base.toNat + off.toNat) :
    effectiveAddress base off = .error .addressCalculationOverflow := by
  rw [effectiveAddress, if_pos ((adderOvf_iff _ _).2 h)]

/-- The adder answers a word exactly when that word is the sum without a carry out. -/
theorem effectiveAddress_eq_ok_iff {base off ea : Word} :
    effectiveAddress base off = .ok ea ↔ ea.toNat = base.toNat + off.toNat := by
  obtain ⟨ho, he⟩ | ⟨ho, he⟩ := effectiveAddress_cases base off <;> rw [he]
  · have hea : ea.toNat < addressSpace := ea.isLt
    exact iff_of_false nofun (by omega)
  · have hsum : (BitVec.ofNat 32 (base.toNat + off.toNat)).toNat = base.toNat + off.toNat :=
      (BitVec.toNat_ofNat ..).trans (Nat.mod_eq_of_lt ho)
    rw [Except.ok.injEq, ← BitVec.toNat_inj, hsum, eq_comm]

theorem exists_effectiveAddress {base off : Word} (h : base.toNat + off.toNat < addressSpace) :
    ∃ ea, effectiveAddress base off = .ok ea ∧ ea.toNat = base.toNat + off.toNat :=
  ⟨adderEa base off, effectiveAddress_eq_ok_iff.2 (adderEa_toNat h), adderEa_toNat h⟩

/-- A field with bit 11 clear is its own offset (R86). -/
theorem immediate_toNat_of_nonneg {imm : Imm12} (h : imm.getLsbD 11 = false) : (immediate imm).toNat = imm.toNat := by
  have hmsb : imm.msb = false := h
  have hlt := imm.isLt
  rw [immediate, BitVec.toNat_signExtend, hmsb, BitVec.toNat_setWidth, if_neg Bool.false_ne_true]
  omega

/-- A field with bit 11 set is an offset `-k` of at most 2048, added as `2^32 - k` (R55, R86). -/
theorem immediate_toNat_of_neg {imm : Imm12} (h : imm.getLsbD 11 = true) :
    (immediate imm).toNat = 2 ^ 32 - (4096 - imm.toNat) ∧ 2048 ≤ imm.toNat := by
  have hmsb : imm.msb = true := h
  have hlt := imm.isLt
  have hge : 2048 ≤ imm.toNat := BitVec.toNat_ge_of_msb_true hmsb
  rw [immediate, BitVec.toNat_signExtend, hmsb, BitVec.toNat_setWidth, if_pos rfl]
  omega

end Sys2Proof.Machine

/-! ## Memory: the order of the checks and the fault of each (R57, R58, R66, R174, R176) -/

namespace Sys2Proof.Machine

/-- `exec` faults with exactly the first check that fails. -/
theorem exec_eq_fault_iff {i : Instr} {s : State} {f : Fault} : exec i s = .fault f ↔ firstFailure i s = some f := by
  obtain ⟨g, hg, e⟩ | ⟨hnone, -, e⟩ := exec_firstFailure i s
  · rw [e, hg, Host.Outcome.fault.injEq, Option.some.injEq]
  · rw [e, hnone]
    exact iff_of_false nofun nofun

section Checks

variable {i : Instr} {s : State}

theorem exec_overflow (h : addressSpace ≤ exactSum s (baseReg i) (rawImm i)) :
    exec i s = .fault .addressCalculationOverflow :=
  exec_eq_fault_iff.2 (if_pos h)

theorem exec_unaligned (ho : exactSum s (baseReg i) (rawImm i) < addressSpace)
    (hm : exactSum s (baseReg i) (rawImm i) % widthBytes (width i) ≠ 0) :
    exec i s = .fault (unaligned i (sumWord s (baseReg i) (rawImm i))) :=
  exec_eq_fault_iff.2 (by rw [firstFailure, if_neg (Nat.not_le.2 ho), if_pos hm])

theorem exec_outOfBounds (ho : exactSum s (baseReg i) (rawImm i) < addressSpace)
    (hm : exactSum s (baseReg i) (rawImm i) % widthBytes (width i) = 0)
    (hb : ¬ accessOk s (baseReg i) (rawImm i) (widthBytes (width i))) :
    exec i s = .fault (.outOfBounds (sumWord s (baseReg i) (rawImm i))) :=
  exec_eq_fault_iff.2 (by rw [firstFailure, if_neg (Nat.not_le.2 ho), if_neg (not_not.2 hm), if_pos hb])

theorem exec_of_accessOk (hok : accessOk s (baseReg i) (rawImm i) (widthBytes (width i))) :
    exec i s = .next (succeeded i s) := by
  obtain ⟨ho, -⟩ | ⟨-, hm, -⟩ | ⟨-, -, hb, -⟩ | ⟨-, e⟩ := exec_cases i s
  · exact absurd hok.1 (Nat.not_lt.2 ho)
  · exact absurd hok.2.1 hm
  · exact absurd hok hb
  · exact e

end Checks

/-- Settles O9: the adder adds the offset field itself, or 2^32 - k for an offset -k. -/
theorem adderOverflowCases : Obligations.AdderOverflowCases := by
  refine ⟨fun base imm => ⟨fun hsign => ?_, fun hsign => ?_, ?_⟩, fun s hs => ?_⟩
  · have hd := immediate_toNat_of_nonneg hsign
    have hlt := imm.isLt
    refine ⟨fun hbase => effectiveAddress_overflow ?_, fun hbase => ?_⟩
    · simp only [addressSpace]
      omega
    · rw [← hd]
      exact exists_effectiveAddress (by simp only [addressSpace]; omega)
  · obtain ⟨hk, hge⟩ := immediate_toNat_of_neg hsign
    have hlt := imm.isLt
    refine ⟨fun hbase => effectiveAddress_overflow ?_, fun hbase => ?_⟩
    · simp only [addressSpace]
      omega
    · obtain ⟨ea, he, hea⟩ := exists_effectiveAddress (base := base) (off := immediate imm)
        (by simp only [addressSpace]; omega)
      exact ⟨ea, he, by omega, by omega⟩
  · exact effectiveAddress_eq_ok_iff.2 rfl
  · refine exec_overflow (i := .lw 1#5 2#5 0xFFC#12) ?_
    rw [exactSum, baseReg, rawImm, hs]
    decide

/-- Settles O15: one lemma for each check in its place, and one for an access that passes them all. -/
theorem firstFailingCheckDecides : Obligations.FirstFailingCheckDecides := by
  intro i s
  refine ⟨exec_overflow, fun ho hm hi => ?_, fun ho hm hi => ?_, fun ho hm hb => ?_, fun hok => ?_⟩
  · rw [exec_unaligned ho hm, unaligned, hi, if_neg Bool.false_ne_true]
    rfl
  · rw [exec_unaligned ho hm, unaligned, hi, if_pos rfl]
    rfl
  · exact exec_outOfBounds ho hm fun ⟨_, _, hin⟩ => hb hin
  · exact ⟨_, exec_of_accessOk hok⟩

theorem unaligned_ne_outOfBounds (i : Instr) (a b : Word) : unaligned i a ≠ .outOfBounds b := by
  unfold unaligned
  split <;> exact nofun

/-- Settles O12: of the four ways `exec` ends only the bounds check's gives this fault. -/
theorem outOfBoundsFaultsExactly : Obligations.OutOfBoundsFaultsExactly := by
  intro i s a
  constructor
  · intro h
    obtain ⟨-, e⟩ | ⟨-, -, e⟩ | ⟨ho, hm, hb, e⟩ | ⟨-, e⟩ := exec_cases i s <;> rw [e] at h
    · cases h
    · exact absurd (Host.Outcome.fault.inj h) (unaligned_ne_outOfBounds i _ a)
    · obtain rfl := Fault.outOfBounds.inj (Host.Outcome.fault.inj h)
      exact ⟨ho, hm, fun hin => hb ⟨ho, hm, hin⟩, sumWord_toNat ho⟩
    · cases h
  · rintro ⟨ho, hm, hb, ha⟩
    obtain rfl : a = sumWord s (baseReg i) (rawImm i) := BitVec.eq_of_toNat_eq (ha.trans (sumWord_toNat ho).symm)
    exact exec_outOfBounds ho hm fun ⟨_, _, hin⟩ => hb hin

/-- Settles O13: an aligned access ends below 2^32, which is inside the default extent. -/
theorem defaultExtentHasNoOutOfBounds : Obligations.DefaultExtentHasNoOutOfBounds := by
  intro i s a hlo hhi h
  obtain ⟨ho, hm, hb, -⟩ := (outOfBoundsFaultsExactly i s a).1 h
  have hend := aligned_end_le ho (width i) rfl hm
  rw [hlo, hhi] at hb
  exact hb ⟨Nat.zero_le _, Nat.sub_le_of_le_add hend⟩

theorem not_accessOk_of_inverted {s : State} (h : s.cfg.memHi.toNat < s.cfg.memLo.toNat) (rs1 : RegId) (imm : Imm12)
    (W : Width) : ¬ accessOk s rs1 imm (widthBytes W) := by
  rintro ⟨-, -, hlo, hhi⟩
  have := widthBytes_pos W
  omega

/-- Settles O14: no access lies inside an inverted extent. -/
theorem invertedExtentAllowsNoAccess : Obligations.InvertedExtentAllowsNoAccess := by
  intro i s h
  have hb := not_accessOk_of_inverted h (baseReg i) (rawImm i) (width i)
  exact ⟨fun t e => hb (exec_next e).1, fun ho hm => exec_outOfBounds ho hm hb⟩

end Sys2Proof.Machine

/-! ## Memory: what a store leaves at each address (R51, R59, R61, R71, R108) -/

namespace Sys2Proof.Machine

/-- A store has a datum register. -/
theorem exists_dataReg_of_store {i : Instr} (h : isStore i = true) : ∃ rs2, dataReg i = some rs2 := by
  cases i with
  | lb _ _ _ | lh _ _ _ | lw _ _ _ | lbu _ _ _ | lhu _ _ _ => cases h
  | sb rs2 _ _ | sh rs2 _ _ | sw rs2 _ _ => exact ⟨rs2, rfl⟩

theorem dataReg_of_load {i : Instr} (h : isStore i = false) : dataReg i = none := by
  cases i with
  | lb _ _ _ | lh _ _ _ | lw _ _ _ | lbu _ _ _ | lhu _ _ _ => rfl
  | sb _ _ _ | sh _ _ _ | sw _ _ _ => cases h

@[simp] theorem loaded_mem (W : Width) (sign : Bool) (rd rs1 : RegId) (imm : Imm12) (s : State) :
    (loaded W sign rd rs1 imm s).mem = s.mem := rfl

@[simp] theorem stored_mem (W : Width) (rs2 rs1 : RegId) (imm : Imm12) (s : State) :
    (stored W rs2 rs1 imm s).mem =
      memWrite s.mem (exactSum s rs1 imm) (widthBytes W) (storeAdapter W (s.regs.read rs2)) := rfl

theorem stored_read_outside {W : Width} {rs1 : RegId} {imm : Imm12} {s : State} {a : Nat}
    (h : a < exactSum s rs1 imm ∨ exactSum s rs1 imm + widthBytes W ≤ a) (rs2 : RegId) :
    (stored W rs2 rs1 imm s).mem.read a = s.mem.read a :=
  memWrite_read_outside s.mem h _

/-- Byte `k` of the datum stands at `ea + k`, low byte first (R51). -/
theorem stored_read_inside {W : Width} {rs1 : RegId} {imm : Imm12} {s : State} (hs : s.mem.wf = true)
    (hok : accessOk s rs1 imm (widthBytes W)) {k : Nat} (hk : k < widthBytes W) (rs2 : RegId) :
    (stored W rs2 rs1 imm s).mem.read (exactSum s rs1 imm + k) = (s.regs.read rs2).extractLsb' (8 * k) 8 := by
  rw [stored_mem, memWrite_read_inside hs (accessOk_end hok) hk, byteOf_storeAdapter hk, byteOf]

/-- The byte at every address after a store, both cases in one. -/
theorem stored_read {W : Width} {rs1 : RegId} {imm : Imm12} {s : State} (hs : s.mem.wf = true)
    (hok : accessOk s rs1 imm (widthBytes W)) (rs2 : RegId) (a : Nat) :
    (stored W rs2 rs1 imm s).mem.read a =
      if exactSum s rs1 imm ≤ a ∧ a < exactSum s rs1 imm + widthBytes W then
        (s.regs.read rs2).extractLsb' (8 * (a - exactSum s rs1 imm)) 8
      else s.mem.read a := by
  split
  · rename_i ha
    obtain ⟨k, rfl⟩ := Nat.exists_eq_add_of_le ha.1
    rw [stored_read_inside hs hok (by omega), Nat.add_sub_cancel_left]
  · rename_i ha
    exact stored_read_outside (by omega) rs2

/-- Settles O20: a store's next state is `stored`, which replaces the memory, at the access, and the port. -/
theorem storeFrame : Obligations.StoreFrame := by
  intro i s t hi h
  obtain ⟨-, rfl⟩ := exec_next h
  rw [succeeded_of_store hi]
  refine ⟨rfl, rfl, rfl, fun ea hea a ha => stored_read_outside ?_ _⟩
  have hsum : ea.toNat = exactSum s (baseReg i) (rawImm i) := effectiveAddress_eq_ok_iff.1 hea
  rwa [← hsum]

/-- Settles O29: by family, as a load replaces no memory and `stored_read` says what a store leaves. -/
theorem memoryAfterEveryInstruction : Obligations.MemoryAfterEveryInstruction := by
  intro i s t hs h a
  obtain ⟨hok, rfl⟩ := exec_next h
  cases hi : isStore i with
  | true =>
    obtain ⟨rs2, hrs2⟩ := exists_dataReg_of_store hi
    rw [succeeded_of_store hi, hrs2]
    exact stored_read hs hok rs2 a
  | false => rw [succeeded_of_load hi, dataReg_of_load hi, loaded_mem]

end Sys2Proof.Machine

/-! ## Memory: what a load gives, from the bytes of its access (R53, R60 to R63, R111) -/

namespace Sys2Proof.Machine

/-- `MemRead` assembles bytes that stand in place in a word, from bit `off` up, to that field of the word (R60). -/
theorem memRead_of_bytes {m : Memory} {addr off n : Nat} {v : Word}
    (h : ∀ k, k < n → m.read (addr + k) = v.extractLsb' (off + 8 * k) 8) :
    memRead m addr n = (v.extractLsb' off (8 * n)).setWidth 32 := by
  induction n with
  | zero =>
    ext j hj
    simp [memRead]
  | succ n ih =>
    ext j hj
    rw [memRead, ih fun k hk => h k (by omega), h n (by omega)]
    by_cases hlow : j < 8 * n
    · simp [hlow, show j < 8 * (n + 1) by omega]
    · have hbit : off + 8 * n + (j - 8 * n) = off + j := by omega
      have hfield : j - 8 * n < 8 ↔ j < 8 * (n + 1) := by omega
      simp [hlow, hbit, hfield]

/-- A field of `n` bits as a 32-bit word: by its sign, or with zeros above (R63). -/
def extended (sign : Bool) {n : Nat} (x : BitVec n) : Word := if sign then x.signExtend 32 else x.setWidth 32

/-- The width adapter extends the raw value's field of the width (R63). -/
theorem loadAdapter_setWidth (W : Width) (sign : Bool) (x : BitVec (8 * widthBytes W)) :
    loadAdapter W sign (x.setWidth 32) = extended sign x := by
  cases sign with
  | false => rfl
  | true =>
    have hback {w : Nat} (hw : w ≤ 32) (y : BitVec w) : (y.setWidth 32).setWidth w = y := by
      rw [BitVec.setWidth_setWidth_of_le _ hw, BitVec.setWidth_eq]
    cases W with
    | byte => exact congrArg (BitVec.signExtend 32) (hback (by decide) x)
    | half => exact congrArg (BitVec.signExtend 32) (hback (by decide) x)
    | word => exact (BitVec.setWidth_eq x).trans (BitVec.signExtend_eq x).symm

theorem isStore_of_destReg {i : Instr} {rd : RegId} (h : destReg i = some rd) : isStore i = false := by
  cases i with
  | lb _ _ _ | lh _ _ _ | lw _ _ _ | lbu _ _ _ | lhu _ _ _ => rfl
  | sb _ _ _ | sh _ _ _ | sw _ _ _ => cases h

/-- A load that succeeds and gives `v`, in the record and, unless `rd` is register 0, in `x[rd]` (R104, R106). -/
def LoadGives (i : Instr) (rd : RegId) (s : State) (v : Word) : Prop :=
  ∃ t, exec i s = .next t ∧ t.out.recValue = v ∧ (rd ≠ 0#5 → t.regs.read rd = v)

theorem LoadGives.record {i : Instr} {rd : RegId} {s : State} {v : Word} (h : LoadGives i rd s v) :
    ∃ t, exec i s = .next t ∧ t.out.recValue = v := by
  obtain ⟨t, hexec, hvalue, -⟩ := h
  exact ⟨t, hexec, hvalue⟩

theorem loadGives_loadedValue {i : Instr} {rd : RegId} {s : State} (hrd : destReg i = some rd)
    (hok : accessOk s (baseReg i) (rawImm i) (widthBytes (width i))) :
    LoadGives i rd s (loadedValue (width i) (signed i) (baseReg i) (rawImm i) s) := by
  refine ⟨_, exec_of_accessOk hok, ?_⟩
  rw [succeeded_of_load (isStore_of_destReg hrd), hrd]
  exact ⟨rfl, RegFile.read_write_same s.regs _⟩

/-- A load whose bytes stand in place in a word, from bit `off` up, gives that field of the word, extended. -/
theorem loadGives_field {i : Instr} {rd : RegId} {s : State} {v : Word} {off : Nat} (hrd : destReg i = some rd)
    (hok : accessOk s (baseReg i) (rawImm i) (widthBytes (width i)))
    (hbytes : ∀ k, k < widthBytes (width i) →
      s.mem.read (exactSum s (baseReg i) (rawImm i) + k) = v.extractLsb' (off + 8 * k) 8) :
    LoadGives i rd s (extended (signed i) (v.extractLsb' off (8 * widthBytes (width i)))) := by
  rw [← loadAdapter_setWidth, ← memRead_of_bytes hbytes]
  exact loadGives_loadedValue hrd hok

/-- A load's value depends on the memory by the bytes of the access only (R61). -/
theorem loadedValue_congr {s t : State} (hregs : s.regs = t.regs) {W : Width} {rs1 : RegId} {imm : Imm12}
    (hbytes : ∀ k, k < widthBytes W →
      s.mem.read (exactSum s rs1 imm + k) = t.mem.read (exactSum s rs1 imm + k)) (sign : Bool) :
    loadedValue W sign rs1 imm s = loadedValue W sign rs1 imm t := by
  rw [loadedValue, loadedValue, ← exactSum_congr hregs, memRead_congr hbytes]

theorem accessOk_congr {s t : State} (hregs : s.regs = t.regs) (hcfg : s.cfg = t.cfg) {rs1 : RegId} {imm : Imm12}
    {n : Nat} (hok : accessOk s rs1 imm n) : accessOk t rs1 imm n := by
  rwa [accessOk, ← exactSum_congr hregs, ← hcfg]

/-- Settles O28: the checks look at no byte, and the value at those of the access only. -/
theorem loadReadsOnlyItsBytes : Obligations.LoadReadsOnlyItsBytes := by
  intro i s t hi hregs hcfg hbytes
  refine ⟨fun f => ?_, fun s' h => ?_⟩
  · rw [exec_eq_fault_iff, exec_eq_fault_iff, firstFailure_congr hregs hcfg]
  · obtain ⟨hok, rfl⟩ := exec_next h
    have hvalue := loadedValue_congr hregs hbytes (signed i)
    refine ⟨_, exec_of_accessOk (accessOk_congr hregs hcfg hok), ?_⟩
    rw [succeeded_of_load hi, succeeded_of_load hi, loaded, loaded, hregs, hvalue, exactSum_congr hregs]
    exact ⟨rfl, rfl⟩

end Sys2Proof.Machine

/-! ## Memory: loads after a store (R53, L-Trunc) -/

namespace Sys2Proof.Machine

/-- A load of the width of the store before it, at the same address, gives the datum's low bits, extended. -/
theorem loadGives_stored {i : Instr} {rd : RegId} {s : State} (hrd : destReg i = some rd) (hs : s.mem.wf = true)
    (hok : accessOk s (baseReg i) (rawImm i) (widthBytes (width i))) (rs2 : RegId) :
    LoadGives i rd (stored (width i) rs2 (baseReg i) (rawImm i) s)
      (extended (signed i) ((s.regs.read rs2).extractLsb' 0 (8 * widthBytes (width i)))) := by
  refine loadGives_field hrd hok fun k hk => ?_
  rw [Nat.zero_add]
  exact stored_read_inside hs hok hk rs2

theorem ofNat_toNat_mod (n : Nat) (x : Word) : BitVec.ofNat n (x.toNat % 2 ^ n) = x.extractLsb' 0 n := by
  apply BitVec.eq_of_toNat_eq
  simp

/-- Zero extension of the low `n` bits is the residue modulo `2^n`. -/
theorem extended_false_low (n : Nat) (x : Word) :
    extended false (x.extractLsb' 0 n) = BitVec.ofNat 32 (x.toNat % 2 ^ n) := by
  apply BitVec.eq_of_toNat_eq
  simp [extended]

theorem extended_true_low (n : Nat) (x : Word) :
    extended true (x.extractLsb' 0 n) = (BitVec.ofNat n (x.toNat % 2 ^ n)).signExtend 32 := by
  rw [ofNat_toNat_mod]
  rfl

/-- Settles O30: the store leaves the datum's bytes at its access, and the load of the same width reads them. -/
theorem storeThenLoadReturnsDatum : Obligations.StoreThenLoadReturnsDatum := by
  intro s rs2 rs1 rd imm hs
  refine ⟨fun hok => ⟨_, exec_of_accessOk hok, ?_, ?_⟩, fun hok => ⟨_, exec_of_accessOk hok, ?_, ?_⟩,
    fun hok => ⟨_, exec_of_accessOk hok, ?_⟩⟩
  · rw [← extended_false_low]
    exact loadGives_stored (i := .lbu rd rs1 imm) rfl hs hok rs2
  · rw [← extended_true_low]
    exact loadGives_stored (i := .lb rd rs1 imm) rfl hs hok rs2
  · rw [← extended_false_low]
    exact loadGives_stored (i := .lhu rd rs1 imm) rfl hs hok rs2
  · rw [← extended_true_low]
    exact loadGives_stored (i := .lh rd rs1 imm) rfl hs hok rs2
  · have hall : extended false ((s.regs.read rs2).extractLsb' 0 32) = s.regs.read rs2 := by
      rw [extended_false_low, Nat.mod_eq_of_lt (BitVec.isLt _), BitVec.ofNat_toNat, BitVec.setWidth_eq]
    have hload := loadGives_stored (i := .lw rd rs1 imm) rfl hs hok rs2
    exact hall ▸ hload

/-- An aligned access inside a word access that passes the checks passes them too. -/
theorem accessOk_inside_word {s t : State} {rs1 r1 : RegId} {imm j : Imm12} {o : Nat} {W : Width}
    (hok : accessOk s rs1 imm 4) (hcfg : t.cfg = s.cfg) (haddr : exactSum t r1 j = exactSum s rs1 imm + o)
    (haligned : o % widthBytes W = 0) (hin : o + widthBytes W ≤ 4) : accessOk t r1 j (widthBytes W) := by
  obtain ⟨hsum, hword, hlo, hhi⟩ := hok
  have hpos := widthBytes_pos W
  have hmod : (exactSum s rs1 imm + o) % widthBytes W = 0 := by
    cases W <;> simp only [widthBytes] at haligned ⊢ <;> omega
  rw [accessOk, haddr, hcfg]
  simp only [addressSpace] at hsum ⊢
  omega

/-- After a word store a load of the bytes from `o` on inside it gives their field of the datum, extended (R53). -/
theorem loadGives_inside_storedWord {i : Instr} {rd rs1 : RegId} {imm : Imm12} {s : State} {o : Nat} (rs2 : RegId)
    (hrd : destReg i = some rd) (hs : s.mem.wf = true) (hok : accessOk s rs1 imm 4)
    (haddr : exactSum (stored .word rs2 rs1 imm s) (baseReg i) (rawImm i) = exactSum s rs1 imm + o)
    (haligned : o % widthBytes (width i) = 0) (hin : o + widthBytes (width i) ≤ 4) :
    LoadGives i rd (stored .word rs2 rs1 imm s)
      (extended (signed i) ((s.regs.read rs2).extractLsb' (8 * o) (8 * widthBytes (width i)))) := by
  refine loadGives_field hrd (accessOk_inside_word hok rfl haddr haligned hin) fun k hk => ?_
  have hlt : o + k < 4 := by omega
  rw [haddr, Nat.add_assoc, ← Nat.mul_add]
  exact stored_read_inside (W := .word) hs hok hlt rs2

/-- Settles O31: the word store leaves its four bytes in place, and each load inside it reads the ones at its place. -/
theorem mixedWidthLoadsSeeBytesInPlace : Obligations.MixedWidthLoadsSeeBytesInPlace := by
  intro s rs2 rs1 imm hs hok
  refine ⟨stored .word rs2 rs1 imm s, exec_of_accessOk (i := .sw rs2 rs1 imm) hok,
    fun k hk => stored_read_inside (W := .word) hs hok hk rs2,
    fun h rd r1 j hh haddr => ?_, fun k rd r1 j hk haddr => ?_⟩
  · have haligned : 2 * h % 2 = 0 := Nat.mul_mod_right 2 h
    have hin : 2 * h + 2 ≤ 4 := by omega
    rw [show 16 * h = 8 * (2 * h) by omega]
    exact ⟨(loadGives_inside_storedWord (i := .lhu rd r1 j) rs2 rfl hs hok haddr haligned hin).record,
      (loadGives_inside_storedWord (i := .lh rd r1 j) rs2 rfl hs hok haddr haligned hin).record⟩
  · have haligned : k % 1 = 0 := Nat.mod_one k
    exact ⟨(loadGives_inside_storedWord (i := .lbu rd r1 j) rs2 rfl hs hok haddr haligned hk).record,
      (loadGives_inside_storedWord (i := .lb rd r1 j) rs2 rfl hs hok haddr haligned hk).record⟩

end Sys2Proof.Machine

/-! ## Encoding: what the decoder accepts (R82 to R84, R90) -/

namespace Sys2Proof

/-- The major opcode of a family (R82, R83). -/
def opcodeOf (store : Bool) : BitVec 7 := if store then opStore else opLoad

/-- The operand set in a word of a family's format (R82, R83). -/
def portOfWord (store : Bool) (w : Word) : PortIn := if store then portOfStoreWord w else portOfLoadWord w

/-- An operand set with 0 in the field its family does not use (R88, R89). -/
def PortIn.clearUnused (p : PortIn) : PortIn := if p.store then { p with rd := 0#5 } else { p with rs2 := 0#5 }

theorem opcodeOf_injective {st st' : Bool} (h : opcodeOf st = opcodeOf st') : st = st' := by
  revert st st'
  decide

theorem portOfWord_store (st : Bool) (w : Word) : (portOfWord st w).store = st := by
  cases st <;> rfl

theorem portOfWord_funct3 (st : Bool) (w : Word) : (portOfWord st w).funct3 = fieldFunct3 w := by
  cases st <;> rfl

theorem portOfWord_clearUnused (st : Bool) (w : Word) : (portOfWord st w).clearUnused = portOfWord st w := by
  cases st <;> rfl

theorem checkVariant_eq_ok_iff {p q : PortIn} : checkVariant p = .ok q ↔ p.wellFormed = true ∧ p = q := by
  unfold checkVariant
  split
  case isTrue h => simp only [h, true_and, Except.ok.injEq]
  case isFalse h => exact iff_of_false nofun fun hq => h hq.1

theorem decodePort_of_opcode {st : Bool} {w : Word} (h : fieldOpcode w = opcodeOf st) :
    decodePort w = checkVariant (portOfWord st w) := by
  cases st with
  | false => exact if_pos h
  | true =>
    have hload : fieldOpcode w ≠ opLoad := by rw [h]; decide
    exact (if_neg hload).trans (if_pos h)

theorem decodePort_of_other {w : Word} (h : ∀ st, fieldOpcode w ≠ opcodeOf st) :
    decodePort w = .error (.opcode (fieldOpcode w)) :=
  (if_neg (h false)).trans (if_neg (h true))

/-- The decoder gives a word's own operand set, when the opcode is its family's and its pair is legal. -/
theorem decodePort_eq_ok_iff {w : Word} {p : PortIn} :
    decodePort w = .ok p ↔
      fieldOpcode w = opcodeOf p.store ∧ portOfWord p.store w = p ∧ p.wellFormed = true := by
  constructor
  · intro h
    by_cases hop : ∃ st, fieldOpcode w = opcodeOf st
    · obtain ⟨st, hst⟩ := hop
      rw [decodePort_of_opcode hst, checkVariant_eq_ok_iff] at h
      obtain ⟨hlegal, rfl⟩ := h
      rw [portOfWord_store]
      exact ⟨hst, rfl, hlegal⟩
    · rw [decodePort_of_other (not_exists.1 hop)] at h
      cases h
  · rintro ⟨hop, hport, hlegal⟩
    rw [decodePort_of_opcode hop, hport]
    exact checkVariant_eq_ok_iff.2 ⟨hlegal, rfl⟩

/-- Variant selection loses nothing but the unused field (R31, R84). -/
theorem toPort_of_ofPort {p : PortIn} {i : Instr} (h : Instr.ofPort p = some i) : i.toPort = p.clearUnused := by
  obtain ⟨st, f3, rs1, rs2, rd, imm⟩ := p
  obtain rfl | rfl | rfl | rfl | rfl | rfl | rfl | rfl := funct3_cases f3 <;> cases st <;> cases h <;> rfl

/-- An instruction's own operand set selects it (R84). -/
theorem ofPort_toPort (i : Instr) : Instr.ofPort i.toPort = some i := by
  cases i <;> rfl

theorem toPort_injective : Function.Injective Instr.toPort := fun i j h =>
  Option.some.inj (by rw [← ofPort_toPort i, h, ofPort_toPort])

theorem toPort_wellFormed (i : Instr) : i.toPort.wellFormed = true := by
  rw [← ofPort_isSome, ofPort_toPort, Option.isSome_some]

/-- The pair of the instruction selected is the pair on the port (R84). -/
theorem pair_of_ofPort {p : PortIn} {i : Instr} (h : Instr.ofPort p = some i) : i.pair = (p.store, p.funct3) := by
  rw [← toPort_pair, toPort_of_ofPort h, PortIn.clearUnused]
  split <;> rfl

/-- The decoder gives only operand sets of instructions (R90). -/
theorem exists_toPort_of_decodePort {w : Word} {p : PortIn} (h : decodePort w = .ok p) : ∃ i : Instr, i.toPort = p := by
  obtain ⟨-, hport, hlegal⟩ := decodePort_eq_ok_iff.1 h
  obtain ⟨i, hi⟩ := Option.isSome_iff_exists.1 ((ofPort_isSome p).trans hlegal)
  exact ⟨i, by rw [toPort_of_ofPort hi, ← hport, portOfWord_clearUnused]⟩

/-- A word is an instruction exactly when the decoder puts that instruction's operand set on the port. -/
theorem decodeWord_eq_ok_iff {w : Word} {i : Instr} : decodeWord w = .ok i ↔ decodePort w = .ok i.toPort := by
  unfold decodeWord
  cases hd : decodePort w with
  | error e => exact iff_of_false nofun nofun
  | ok p =>
    obtain ⟨j, rfl⟩ := exists_toPort_of_decodePort hd
    simp only [ofPort_toPort, Except.ok.injEq, toPort_injective.eq_iff]

/-- What a word must hold to be an instruction: the family's opcode, and the operand set in the family's format. -/
theorem decodeWord_eq_ok_iff_fields {w : Word} {i : Instr} :
    decodeWord w = .ok i ↔ fieldOpcode w = opcodeOf i.toPort.store ∧ portOfWord i.toPort.store w = i.toPort := by
  rw [decodeWord_eq_ok_iff, decodePort_eq_ok_iff, and_iff_left (toPort_wellFormed i)]

/-- A word whose operand set reaches the port is an instruction. -/
theorem exists_decodeWord_of_decodePort {w : Word} {p : PortIn} (h : decodePort w = .ok p) :
    ∃ i, decodeWord w = .ok i := by
  obtain ⟨i, rfl⟩ := exists_toPort_of_decodePort h
  exact ⟨i, decodeWord_eq_ok_iff.2 h⟩

end Sys2Proof

/-! ## Encoding: the round trips (R82 to R84, R86, R88) -/

namespace Sys2Proof

/-- The word of an operand set, in its family's format (R82, R83). -/
def encodePort (p : PortIn) : Word :=
  if p.store then encodeS p.imm12 p.rs2 p.rs1 p.funct3 else encodeI p.imm12 p.rs1 p.funct3 p.rd

theorem encode_eq_encodePort (i : Instr) : encode i = encodePort i.toPort := by
  cases i <;> rfl

theorem fieldOpcode_encodePort (p : PortIn) : fieldOpcode (encodePort p) = opcodeOf p.store := by
  unfold encodePort opcodeOf
  split
  · exact fieldOpcode_encodeS ..
  · exact fieldOpcode_encodeI ..

theorem fieldFunct3_encodePort (p : PortIn) : fieldFunct3 (encodePort p) = p.funct3 := by
  unfold encodePort
  split
  · exact fieldFunct3_encodeS ..
  · exact fieldFunct3_encodeI ..

/-- The format keeps every operand but the unused one (R82, R83). -/
theorem portOfWord_encodePort (p : PortIn) : portOfWord p.store (encodePort p) = p.clearUnused := by
  obtain ⟨st, f3, rs1, rs2, rd, imm⟩ := p
  cases st with
  | false =>
    show portOfLoadWord (encodeI imm rs1 f3 rd) = _
    rw [portOfLoadWord, fieldFunct3_encodeI, fieldRs1_encodeI, fieldRd_encodeI, fieldImmI_encodeI]
    rfl
  | true =>
    show portOfStoreWord (encodeS imm rs2 rs1 f3) = _
    rw [portOfStoreWord, fieldFunct3_encodeS, fieldRs1_encodeS, fieldRs2_encodeS, fieldImmS_encodeS]
    rfl

/-- No bit of a word is lost: its opcode and its operand set give it back (R82, R83). -/
theorem encodePort_portOfWord {st : Bool} {w : Word} (h : fieldOpcode w = opcodeOf st) :
    encodePort (portOfWord st w) = w := by
  cases st with
  | false => exact encodeI_fields h
  | true => exact encodeS_fields h

theorem toPort_clearUnused (i : Instr) : i.toPort.clearUnused = i.toPort :=
  (toPort_of_ofPort (ofPort_toPort i)).symm

theorem decodeWord_encode (i : Instr) : decodeWord (encode i) = .ok i := by
  rw [decodeWord_eq_ok_iff_fields, encode_eq_encodePort, portOfWord_encodePort, toPort_clearUnused]
  exact ⟨fieldOpcode_encodePort _, rfl⟩

/-- The decoder on the bytes of a word is the decoder on the word (R81). -/
theorem decode_bytesOfWord_append {w : Word} {i : Instr} (h : decodeWord w = .ok i) (rest : List Byte) :
    decode (bytesOfWord w ++ rest) = .ok (i, rest) := by
  simp only [bytesOfWord, List.cons_append, List.nil_append, decode, wordOfBytes_bytesOfWord, h]

/-- Settles O1: the word's bytes give the word back, and the fields of the word the operand set of the instruction. -/
theorem decodeInvertsEncode : Obligations.DecodeInvertsEncode := fun i rest =>
  decode_bytesOfWord_append (decodeWord_encode i) rest

/-- Settles O2: the word's opcode and operand set, which are the instruction's, give the word back. -/
theorem encodeInvertsDecode : Obligations.EncodeInvertsDecode := by
  intro w i h
  obtain ⟨hop, hport⟩ := decodeWord_eq_ok_iff_fields.1 h
  calc
    encode i = encodePort i.toPort := encode_eq_encodePort i
    _ = encodePort (portOfWord i.toPort.store w) := by rw [hport]
    _ = w := encodePort_portOfWord hop

end Sys2Proof

/-! ## Encoding: the rows of the table (R84) -/

namespace Sys2Proof

/-- The mask of every row (R84): the bits of funct3 and of the opcode. -/
def rowMask : Word := 0x0000707F#32

/-- The match word of the row with this pair (R84): every operand bit is 0. -/
def rowMatch (st : Bool) (f : BitVec 3) : Word :=
  encodePort { store := st, funct3 := f, rs1 := 0#5, rs2 := 0#5, rd := 0#5, imm12 := 0#12 }

theorem fieldOpcode_and_rowMask (w : Word) : fieldOpcode (w &&& rowMask) = fieldOpcode w := by
  rw [fieldOpcode, BitVec.extractLsb'_and]
  exact BitVec.and_allOnes

theorem fieldFunct3_and_rowMask (w : Word) : fieldFunct3 (w &&& rowMask) = fieldFunct3 w := by
  rw [fieldFunct3, BitVec.extractLsb'_and]
  exact BitVec.and_allOnes

/-- A field the mask leaves out reads 0. -/
theorem extractLsb'_and_rowMask {start len : Nat} (h : rowMask.extractLsb' start len = 0#len) (w : Word) :
    (w &&& rowMask).extractLsb' start len = 0#len := by
  rw [BitVec.extractLsb'_and, h, BitVec.and_zero]

/-- The mask keeps the pair and clears every operand. -/
theorem portOfWord_and_rowMask (st : Bool) (w : Word) :
    portOfWord st (w &&& rowMask) =
      { store := st, funct3 := fieldFunct3 w, rs1 := 0#5, rs2 := 0#5, rd := 0#5, imm12 := 0#12 } := by
  have hrd : fieldRd (w &&& rowMask) = 0#5 := extractLsb'_and_rowMask rfl w
  have hrs1 : fieldRs1 (w &&& rowMask) = 0#5 := extractLsb'_and_rowMask rfl w
  have hrs2 : fieldRs2 (w &&& rowMask) = 0#5 := extractLsb'_and_rowMask rfl w
  have hhigh : fieldImmHigh (w &&& rowMask) = 0#7 := extractLsb'_and_rowMask rfl w
  have himmI : fieldImmI (w &&& rowMask) = 0#12 := extractLsb'_and_rowMask rfl w
  have himmS : fieldImmS (w &&& rowMask) = 0#12 := by
    rw [fieldImmS, hhigh, hrd]; rfl
  cases st with
  | false =>
    show portOfLoadWord _ = _
    rw [portOfLoadWord, fieldFunct3_and_rowMask, hrs1, hrd, himmI]
  | true =>
    show portOfStoreWord _ = _
    rw [portOfStoreWord, fieldFunct3_and_rowMask, hrs1, hrs2, himmS]

/-- A word matches a row exactly when its opcode and its funct3 are the row's. -/
theorem and_rowMask_eq_rowMatch_iff {st : Bool} {f : BitVec 3} {w : Word} :
    w &&& rowMask = rowMatch st f ↔ fieldOpcode w = opcodeOf st ∧ fieldFunct3 w = f := by
  constructor
  · intro h
    rw [← fieldOpcode_and_rowMask, ← fieldFunct3_and_rowMask, h]
    exact ⟨fieldOpcode_encodePort _, fieldFunct3_encodePort _⟩
  · rintro ⟨hop, rfl⟩
    rw [rowMatch, ← portOfWord_and_rowMask, encodePort_portOfWord ((fieldOpcode_and_rowMask w).trans hop)]

/-- A word matches the row of an instruction with the word's own operands exactly when it is that instruction. -/
theorem matches_row_iff_decodeWord {st : Bool} {f : BitVec 3} {w : Word} {i : Instr}
    (hi : i.toPort = { portOfWord st w with funct3 := f }) :
    w &&& rowMask = rowMatch st f ↔ decodeWord w = .ok i := by
  have hstore : i.toPort.store = st := by rw [hi]; exact portOfWord_store st w
  rw [and_rowMask_eq_rowMatch_iff, decodeWord_eq_ok_iff_fields, hstore, hi]
  refine and_congr_right fun _ => ⟨?_, fun h => ?_⟩
  · rintro rfl
    rw [← portOfWord_funct3 st w]
  · rw [← portOfWord_funct3 st w, h]

/-- A word that matches the row of a legal pair puts that pair on the port. -/
theorem decodePort_of_matches_row {st : Bool} {f : BitVec 3} {w : Word}
    (hlegal : legalPairs.contains (st, f) = true) (h : w &&& rowMask = rowMatch st f) :
    ∃ p, decodePort w = .ok p ∧ p.store = st ∧ p.funct3 = f := by
  obtain ⟨hop, rfl⟩ := and_rowMask_eq_rowMatch_iff.1 h
  have hwf : (portOfWord st w).wellFormed = true := by
    rwa [PortIn.wellFormed, portOfWord_store, portOfWord_funct3]
  refine ⟨portOfWord st w, ?_, portOfWord_store st w, portOfWord_funct3 st w⟩
  rw [decodePort_of_opcode hop]
  exact checkVariant_eq_ok_iff.2 ⟨hwf, rfl⟩

/-- Settles O3: each row's match word is the `rowMatch` of its pair. -/
theorem tableRowsSelectVariants : Obligations.TableRowsSelectVariants := fun _ =>
  ⟨matches_row_iff_decodeWord (st := false) (f := 0b000#3) rfl,
    decodePort_of_matches_row (st := false) (f := 0b000#3) rfl,
    matches_row_iff_decodeWord (st := false) (f := 0b001#3) rfl,
    decodePort_of_matches_row (st := false) (f := 0b001#3) rfl,
    matches_row_iff_decodeWord (st := false) (f := 0b010#3) rfl,
    decodePort_of_matches_row (st := false) (f := 0b010#3) rfl,
    matches_row_iff_decodeWord (st := false) (f := 0b100#3) rfl,
    decodePort_of_matches_row (st := false) (f := 0b100#3) rfl,
    matches_row_iff_decodeWord (st := false) (f := 0b101#3) rfl,
    decodePort_of_matches_row (st := false) (f := 0b101#3) rfl,
    matches_row_iff_decodeWord (st := true) (f := 0b000#3) rfl,
    decodePort_of_matches_row (st := true) (f := 0b000#3) rfl,
    matches_row_iff_decodeWord (st := true) (f := 0b001#3) rfl,
    decodePort_of_matches_row (st := true) (f := 0b001#3) rfl,
    matches_row_iff_decodeWord (st := true) (f := 0b010#3) rfl,
    decodePort_of_matches_row (st := true) (f := 0b010#3) rfl⟩

end Sys2Proof

/-! ## Encoding: the spec's words (R96, 95 §2.6, §2.7) -/

namespace Sys2Proof.Machine

/-- Settles O4: the operand set of the encoded instruction is the instruction's own. -/
theorem workedEncodingOfStoreHalf : Obligations.WorkedEncodingOfStoreHalf := by
  have hport : decodePort 0x00209123#32 = .ok (Instr.sh 2#5 1#5 0x002#12).toPort :=
    decodeWord_eq_ok_iff.1 (decodeWord_encode (.sh 2#5 1#5 0x002#12))
  exact ⟨by decide, rfl, rfl, _, hport, rfl, rfl, rfl, rfl, rfl⟩

theorem tableWord_toNat (w : Word) : tableWord 32 w.toNat = w := by
  rw [tableWord, Nat.mod_eq_of_lt w.isLt, BitVec.ofNat_toNat, BitVec.setWidth_eq]

theorem decodeTableWord_encode (i : Instr) : decodeTableWord 32 (encode i).toNat = some i := by
  have hdecode : decode (bytesOfWord (encode i)) = .ok (i, []) := decode_bytesOfWord_append (decodeWord_encode i) []
  rw [decodeTableWord, tableWord_toNat, hdecode]

/-- Settles O5: each word is the encoding of its instruction, which the decoder reads back. -/
theorem vectorWordsDecode : Obligations.VectorWordsDecode :=
  ⟨decodeTableWord_encode (.lb 3#5 1#5 0x000#12), decodeTableWord_encode (.lb 3#5 0#5 0x800#12),
    decodeTableWord_encode (.lh 3#5 1#5 0x002#12), decodeTableWord_encode (.lw 3#5 1#5 0xFFC#12),
    decodeTableWord_encode (.lbu 3#5 1#5 0x001#12), decodeTableWord_encode (.lhu 3#5 1#5 0x003#12),
    decodeTableWord_encode (.sb 2#5 1#5 0x7FF#12), decodeTableWord_encode (.sh 2#5 6#5 0xFFC#12),
    decodeTableWord_encode (.sw 2#5 5#5 0x003#12)⟩

end Sys2Proof.Machine

/-! ## Encoding: what is no instruction (R90) -/

namespace Sys2Proof.Machine

/-- The pairs R90 lists for each family are the ones outside the table of R84. -/
theorem legalPairs_contains_of_illegal {st : Bool} {f : BitVec 3}
    (h : (st = false ∧ (f = 0b011#3 ∨ f = 0b110#3 ∨ f = 0b111#3)) ∨
      (st = true ∧ (f = 0b011#3 ∨ f = 0b100#3 ∨ f = 0b101#3 ∨ f = 0b110#3 ∨ f = 0b111#3))) :
    legalPairs.contains (st, f) = false := by
  revert st f
  decide

theorem ofPort_eq_none {p : PortIn} (h : p.wellFormed = false) : Instr.ofPort p = none := by
  rw [← Option.not_isSome_iff_eq_none, ofPort_isSome, h]
  exact Bool.false_ne_true

/-- A word whose pair is outside the table is no instruction. -/
theorem decodeWord_ne_ok {w : Word} {st : Bool} (hop : fieldOpcode w = opcodeOf st)
    (h : legalPairs.contains (st, fieldFunct3 w) = false) (i : Instr) : decodeWord w ≠ .ok i := by
  intro hi
  obtain ⟨hop', hport⟩ := decodeWord_eq_ok_iff_fields.1 hi
  obtain rfl : st = i.toPort.store := opcodeOf_injective (hop.symm.trans hop')
  have hlegal := toPort_wellFormed i
  rw [PortIn.wellFormed, ← hport, portOfWord_store, portOfWord_funct3, h] at hlegal
  exact Bool.false_ne_true hlegal

theorem deliveryOfWord_of_no_instruction {w : Word} (h : ∀ i, decodeWord w ≠ .ok i) :
    deliveryOfWord w = .malformed w := by
  unfold deliveryOfWord
  cases hd : decodePort w with
  | error e => rfl
  | ok p =>
    obtain ⟨i, hi⟩ := exists_decodeWord_of_decodePort hd
    exact absurd hi (h i)

/-- Settles O6: the decoder's check of the pair, and the two refusals of what the loop presents. -/
theorem illegalVariantsAreRefused : Obligations.IllegalVariantsAreRefused := by
  refine ⟨fun w st hop hillegal => ?_, fun w h => ?_, fun s p rest hp hillegal => ?_⟩
  · exact decodeWord_ne_ok hop (legalPairs_contains_of_illegal hillegal)
  · have hdel := deliveryOfWord_of_no_instruction h
    refine ⟨hdel, fun s => ?_⟩
    have hpending : (s.withFetchWord 32 w.toNat).pending = .malformed w :: s.pending.drop 1 := by
      rw [State.withFetchWord, State.setPending_pending, tableWord_toNat, hdel]
    exact step_of_pending hpending
  · have hnone := ofPort_eq_none (p := p) (legalPairs_contains_of_illegal hillegal)
    rw [step_of_pending hp]
    simp only [present, hnone]

end Sys2Proof.Machine

/-! ## Encoding: width and sign from funct3, and the offset (R85 to R87) -/

namespace Sys2Proof.Machine

theorem isStore_eq_pair (i : Instr) : isStore i = i.pair.1 := by
  cases i <;> rfl

theorem widthOfFunct3_pair (i : Instr) : widthOfFunct3 i.pair.2 = some (width i) := by
  cases i <;> simp only [Instr.pair, width] <;> decide

/-- A load narrower than a word is signed as funct3[2] says (R85); the others have no signedness (R63). -/
theorem signedOfFunct3_pair {i : Instr} (hload : isStore i = false) (hnarrow : width i ≠ .word) :
    signedOfFunct3 i.pair.2 = signed i := by
  cases i with
  | lb | lh | lbu | lhu => simp only [Instr.pair, signed]; decide
  | lw => exact absurd rfl hnarrow
  | sb | sh | sw => cases hload

/-- `funct3[1:0]` is the base-2 logarithm of the width (R85). -/
theorem widthOfFunct3_eq_some_iff {f : BitVec 3} {W : Width} :
    widthOfFunct3 f = some W ↔ 2 ^ (f.extractLsb' 0 2).toNat = widthBytes W := by
  revert f
  cases W <;> decide

/-- Settles O7: the pair on the port is the instruction's own, and its funct3 gives width and signedness. -/
theorem widthAndSignFromFunct3 : Obligations.WidthAndSignFromFunct3 := by
  intro p i h
  have hpair := pair_of_ofPort h
  have hstore : isStore i = p.store := by rw [isStore_eq_pair, hpair]
  have hwidth : 2 ^ (p.funct3.extractLsb' 0 2).toNat = widthBytes (width i) := by
    rw [← widthOfFunct3_eq_some_iff, ← widthOfFunct3_pair, hpair]
  refine ⟨hstore, fun h0 => ?_, fun h1 => ?_, fun h2 => ?_, fun h3 => ?_, fun hload hnarrow => ?_⟩
  · rw [← hwidth, h0]; rfl
  · rw [← hwidth, h1]; rfl
  · rw [← hwidth, h2]; rfl
  · rw [h3] at hwidth
    cases hw : width i <;> rw [hw] at hwidth <;> cases hwidth
  · have hsigned := signedOfFunct3_pair (hstore.trans hload) hnarrow
    rw [← hsigned, hpair, signedOfFunct3, Bool.not_eq_true']

/-- Sign extension keeps the signed value of the field (R86). -/
theorem immediate_toInt (imm : Imm12) : (immediate imm).toInt = imm.toInt :=
  BitVec.toInt_signExtend_of_le (by decide)

/-- Settles O8: the signed value is the field's, and the unsigned one as bit 11 says. -/
theorem offsetRange : Obligations.OffsetRange := by
  intro imm
  rw [immediate_toInt]
  refine ⟨BitVec.le_toInt imm, BitVec.toInt_le, rfl, fun hsign => ?_, fun hsign => ?_⟩
  · have hlt : imm.toNat < 2048 := BitVec.toNat_lt_of_msb_false hsign
    rw [immediate_toNat_of_nonneg hsign]
    omega
  · obtain ⟨hk, hge⟩ := immediate_toNat_of_neg hsign
    omega

end Sys2Proof.Machine

/-! ## Transaction: the generic pipeline on the port (R85, R102) -/

namespace Sys2Proof.Machine

/-- Bit 32 of the sum R102 writes out is the adder's `ovf` (R44, R54). -/
theorem sum_getLsbD_eq_adderOvf (base off : Word) :
    (base.setWidth 33 + off.setWidth 33).getLsbD 32 = adderOvf base off := rfl

/-- The low bits of the sum R102 writes out are the adder's `ea` (R44, R54). -/
theorem sum_setWidth_eq_adderEa (base off : Word) :
    (base.setWidth 33 + off.setWidth 33).setWidth 32 = adderEa base off := rfl

/-- The report with R102's test for register 0, which stands the other way round. -/
theorem writeBackReport_loaded (rd : RegId) (r : Record) :
    writeBackReport rd (.loaded r) = if rd ≠ 0#5 then .updated rd r.value else .noRegisterUpdated :=
  (ite_not _ _ _).symm

section Pipeline

variable {p : PortIn} {W : Width}

/-- `execute` on a store's operand set is `Store(W)` (R102, R120). -/
theorem execute_of_store (hlegal : p.wellFormed = true) (hW : widthOfFunct3 p.funct3 = some W)
    (hstore : p.store = true) (s : State) : execute p s = store W p.rs2 p.rs1 p.imm12 s := by
  simp only [execute, hlegal, hW, hstore, if_true, sum_getLsbD_eq_adderOvf, sum_setWidth_eq_adderEa, store, transact,
    memoryTransition, effectiveAddress]
  cases adderOvf (s.regs.read p.rs1) (immediate p.imm12) with
  | true => rfl
  | false =>
    simp only [Bool.false_eq_true, if_false]
    cases memoryWrite s.cfg s.mem (adderEa (s.regs.read p.rs1) (immediate p.imm12)) W (s.regs.read p.rs2) with
    | error f => rfl
    | ok r => rfl

/-- `execute` on a load's operand set is `Load(W, signed)` (R102, R140). -/
theorem execute_of_load (hlegal : p.wellFormed = true) (hW : widthOfFunct3 p.funct3 = some W)
    (hload : p.store = false) (s : State) :
    execute p s = load W (signedOfFunct3 p.funct3) p.rd p.rs1 p.imm12 s := by
  simp only [execute, hlegal, hW, hload, if_true, sum_getLsbD_eq_adderOvf, sum_setWidth_eq_adderEa, load, transact,
    memoryTransition, effectiveAddress]
  cases adderOvf (s.regs.read p.rs1) (immediate p.imm12) with
  | true => rfl
  | false =>
    simp only [Bool.false_eq_true, if_false]
    cases memoryRead s.cfg s.mem (adderEa (s.regs.read p.rs1) (immediate p.imm12)) W with
    | error f => rfl
    | ok raw =>
      simp only [writeBack, writeBackReport_loaded]
      rfl

end Pipeline

/-- A whole word has nothing to extend, so its adapter has no signedness (R63, R145). -/
theorem loadAdapter_word (sign : Bool) (raw : Word) : loadAdapter .word sign raw = raw := by
  cases sign <;> rfl

/-- The signedness of funct3 gives every load its own adapter, LW's included, whose signedness R63 leaves open. -/
theorem loadAdapter_funct3 {i : Instr} (hload : isStore i = false) (raw : Word) :
    loadAdapter (width i) (signedOfFunct3 i.pair.2) raw = loadAdapter (width i) (signed i) raw := by
  by_cases hword : width i = .word
  · rw [hword, loadAdapter_word, loadAdapter_word]
  · rw [signedOfFunct3_pair hload hword]

/-- A load depends on its signedness through the adapter only. -/
theorem load_congr_sign {W : Width} {sign sign' : Bool} (h : ∀ raw, loadAdapter W sign raw = loadAdapter W sign' raw)
    (rd rs1 : RegId) (imm : Imm12) (s : State) : load W sign rd rs1 imm s = load W sign' rd rs1 imm s := by
  simp only [load, transact, memoryTransition, h]
  rfl

/-- The operand set of an instruction, field by field (R31, R89). -/
theorem toPort_eq (i : Instr) :
    i.toPort = { store := isStore i, funct3 := i.pair.2, rs1 := baseReg i, rs2 := (dataReg i).getD 0#5,
                 rd := (destReg i).getD 0#5, imm12 := rawImm i } := by
  cases i <;> rfl

/-- A store takes its operands from the port (R31, R100). -/
theorem exec_store_toPort {i : Instr} (h : isStore i = true) (s : State) :
    exec i s = store (width i) i.toPort.rs2 i.toPort.rs1 i.toPort.imm12 s := by
  rw [exec_eq_store h, toPort_eq]

/-- A load takes its operands from the port (R31, R100). -/
theorem exec_load_toPort {i : Instr} (h : isStore i = false) (s : State) :
    exec i s = load (width i) (signedOfFunct3 i.pair.2) i.toPort.rd i.toPort.rs1 i.toPort.imm12 s := by
  rw [exec_eq_load h, load_congr_sign (loadAdapter_funct3 h), toPort_eq]

/-- Settles O39: by family, the instruction and the pipeline are the same `store` or `load` of the same operands. -/
theorem meaningsRefineGenericPipeline : Obligations.MeaningsRefineGenericPipeline := by
  intro p i s h
  have hpair := pair_of_ofPort h
  have hstore : isStore i = p.store := by rw [isStore_eq_pair, hpair]
  have hW : widthOfFunct3 p.funct3 = some (width i) := by rw [← widthOfFunct3_pair, hpair]
  have hlegal : p.wellFormed = true := by rw [← ofPort_isSome, h, Option.isSome_some]
  cases hp : p.store with
  | true =>
    rw [exec_store_toPort (hstore.trans hp), toPort_of_ofPort h, PortIn.clearUnused, if_pos hp,
      execute_of_store hlegal hW hp]
  | false =>
    rw [exec_load_toPort (hstore.trans hp), hpair, toPort_of_ofPort h, PortIn.clearUnused,
      if_neg (ne_true_of_eq_false hp), execute_of_load hlegal hW hp]

end Sys2Proof.Machine

/-! ## Transaction: the record, the report, and what a fault leaves (R105 to R107) -/

namespace Sys2Proof.Machine

/-- The width signal of a record names the width (R106). -/
theorem widthSignal_toNat (W : Width) : (BitVec.ofNat 3 (widthBytes W)).toNat = widthBytes W := by
  cases W <;> rfl

/-- What every success shows on the port of the access itself: no fault, and a record of its width and address. -/
theorem succeeded_record {i : Instr} {s : State} (hok : accessOk s (baseReg i) (rawImm i) (widthBytes (width i))) :
    (succeeded i s).out.fault = false ∧ (succeeded i s).out.recValid = true ∧
      (succeeded i s).out.recWidth.toNat = widthBytes (width i) ∧
      (succeeded i s).out.recAddr.toNat = exactSum s (baseReg i) (rawImm i) := by
  cases hi : isStore i with
  | true =>
    rw [succeeded_of_store hi]
    exact ⟨rfl, rfl, widthSignal_toNat _, sumWord_toNat hok.1⟩
  | false =>
    rw [succeeded_of_load hi]
    exact ⟨rfl, rfl, widthSignal_toNat _, sumWord_toNat hok.1⟩

theorem isStore_of_dataReg {i : Instr} {rs2 : RegId} (h : dataReg i = some rs2) : isStore i = true := by
  cases i with
  | lb _ _ _ | lh _ _ _ | lw _ _ _ | lbu _ _ _ | lhu _ _ _ => cases h
  | sb _ _ _ | sh _ _ _ | sw _ _ _ => rfl

theorem isStore_of_dataReg_none {i : Instr} (h : dataReg i = none) : isStore i = false := by
  cases i with
  | lb _ _ _ | lh _ _ _ | lw _ _ _ | lbu _ _ _ | lhu _ _ _ => rfl
  | sb _ _ _ | sh _ _ _ | sw _ _ _ => cases h

/-- Settles O41: `succeeded` drives the record for both families, with the truncated datum or the loaded value. -/
theorem accessRecordOfEverySuccess : Obligations.AccessRecordOfEverySuccess := by
  refine ⟨fun i s t h => ?_, fun _ => rfl⟩
  obtain ⟨hok, rfl⟩ := exec_next h
  obtain ⟨-, hvalid, hwidth, haddr⟩ := succeeded_record hok
  refine ⟨hvalid, hwidth, haddr, fun rs2 hrs2 => ?_, fun hnone => ?_⟩
  · rw [succeeded_of_store (isStore_of_dataReg hrs2), hrs2]
    exact storeAdapter_toNat _ _
  · rw [succeeded_of_load (isStore_of_dataReg_none hnone)]
    rfl

/-- Settles O42: a store's port has no report, and a load's has one unless `rd` is register 0. -/
theorem writeBackReportOfEverySuccess : Obligations.WriteBackReportOfEverySuccess := by
  refine ⟨fun i s t h => ?_, fun _ => rfl⟩
  obtain ⟨-, rfl⟩ := exec_next h
  refine ⟨fun rd hrd hne => ?_, fun hno => ?_⟩
  · rw [succeeded_of_load (isStore_of_destReg hrd), hrd]
    exact ⟨decide_eq_true hne, rfl, if_neg hne, RegFile.read_write_same _ _ hne⟩
  · cases hi : isStore i with
    | true =>
      rw [succeeded_of_store hi]
      exact ⟨rfl, rfl, rfl⟩
    | false =>
      obtain ⟨rd, hrd⟩ := exists_destReg_of_load hi
      obtain rfl : rd = 0#5 := by simpa [hrd] using hno
      rw [succeeded_of_load hi, hrd]
      exact ⟨rfl, rfl, rfl⟩

/-- Settles O47: of the ways a step goes on, a success shows no fault, and the loop's policies change only the port and
what is pending. -/
theorem faultLeavesStateUnchanged : Obligations.FaultLeavesStateUnchanged := by
  intro s t d rest hpending h hfault
  obtain ⟨hidle, -⟩ | ⟨_, _, _, -, -, hexec⟩ | ⟨_, _, _, f, -, -, -, rfl | rfl⟩ := step_next h
  · rw [hpending] at hidle
    cases hidle
  · obtain ⟨hok, rfl⟩ := exec_next hexec
    obtain ⟨hnofault, -⟩ := succeeded_record hok
    rw [hnofault] at hfault
    cases hfault
  · exact ⟨rfl, rfl, rfl, rfl, rfl, rfl, rfl, rfl, rfl⟩
  · exact ⟨rfl, rfl, rfl, rfl, rfl, rfl, rfl, rfl, rfl⟩

end Sys2Proof.Machine

/-! ## The stores: SB, SH and SW (R120, R122 to R124) -/

namespace Sys2Proof.Machine

/-- `MemWrite` depends on the value by the bytes it writes only (R59). -/
theorem memWrite_congr {n : Nat} {v w : Word} (h : ∀ k, k < n → byteOf v k = byteOf w k) (m : Memory) (addr : Nat) :
    memWrite m addr n v = memWrite m addr n w := by
  induction n with
  | zero => rfl
  | succ n ih => rw [memWrite, memWrite, ih fun k hk => h k (by omega), h n (by omega)]

/-- A store writes the bytes of the register itself: truncation leaves those it writes alone (R59, R62). -/
theorem memWrite_storeAdapter (m : Memory) (addr : Nat) (W : Width) (v : Word) :
    memWrite m addr (widthBytes W) (storeAdapter W v) = memWrite m addr (widthBytes W) v :=
  memWrite_congr (fun _ hk => byteOf_storeAdapter hk v) m addr

/-- A store that passes the three checks replaces the memory, by the bytes of `x[rs2]`, and the port (R120). -/
theorem exec_store_of_accessOk {i : Instr} {rs2 : RegId} {s : State} (hrs2 : dataReg i = some rs2)
    (hok : accessOk s (baseReg i) (rawImm i) (widthBytes (width i))) :
    exec i s = .next { s with
      mem := memWrite s.mem (exactSum s (baseReg i) (rawImm i)) (widthBytes (width i)) (s.regs.read rs2)
      out := storePort (BitVec.ofNat 3 (widthBytes (width i))) (exactSum s (baseReg i) (rawImm i))
        (storeAdapter (width i) (s.regs.read rs2)) } := by
  rw [exec_of_accessOk hok, succeeded_of_store (isStore_of_dataReg hrs2), hrs2, Option.getD_some, stored,
    memWrite_storeAdapter]

/-- An aligned access with its first byte below the extent or its last byte above it is out of bounds (R57). -/
theorem exec_outOfBounds_of_outside {i : Instr} {s : State} (ho : exactSum s (baseReg i) (rawImm i) < addressSpace)
    (hm : exactSum s (baseReg i) (rawImm i) % widthBytes (width i) = 0)
    (hout : exactSum s (baseReg i) (rawImm i) < s.cfg.memLo.toNat ∨
      s.cfg.memHi.toNat < exactSum s (baseReg i) (rawImm i) + widthBytes (width i) - 1) :
    exec i s = .fault (.outOfBounds (sumWord s (baseReg i) (rawImm i))) :=
  exec_outOfBounds ho hm fun ⟨_, _, hlo, hhi⟩ => hout.elim (Nat.not_lt.2 hlo) (Nat.not_lt.2 hhi)

/-- Settles O17: the width is 1, of which every address is a multiple. -/
theorem storeByteMeaning : Obligations.StoreByteMeaning := by
  refine ⟨fun rs2 rs1 imm s => ⟨rfl, rfl, rfl, fun hok => ?_, exec_overflow (i := .sb rs2 rs1 imm), fun ho hb => ?_⟩,
    decodeTableWord_encode (.sb 2#5 1#5 0x003#12)⟩
  · rw [← storeAdapter_byte]
    exact exec_store_of_accessOk (i := .sb rs2 rs1 imm) rfl hok
  · exact exec_outOfBounds (i := .sb rs2 rs1 imm) ho (Nat.mod_one _) fun ⟨_, _, hin⟩ => hb hin

/-- Settles O18: a store of the low two bytes, and one lemma for each check in its place. -/
theorem storeHalfMeaning : Obligations.StoreHalfMeaning := by
  refine ⟨fun rs2 rs1 imm s => ⟨rfl, rfl, rfl, fun hok => ?_, exec_overflow (i := .sh rs2 rs1 imm), fun ho hm => ?_,
    exec_outOfBounds_of_outside (i := .sh rs2 rs1 imm)⟩, decodeTableWord_encode (.sh 2#5 1#5 0x002#12)⟩
  · rw [← storeAdapter_half]
    exact exec_store_of_accessOk (i := .sh rs2 rs1 imm) rfl hok
  · exact exec_unaligned (i := .sh rs2 rs1 imm) ho (Nat.mod_two_ne_zero.2 hm)

/-- Settles O19: a store of all four bytes, which ends below 2^32 as it is aligned, and one lemma for each check. -/
theorem storeWordMeaning : Obligations.StoreWordMeaning :=
  ⟨fun rs2 rs1 imm _ => ⟨rfl, rfl, rfl,
    fun hok => ⟨Nat.le_sub_of_add_le (accessOk_end (W := .word) hok),
      exec_store_of_accessOk (i := .sw rs2 rs1 imm) rfl hok⟩,
    exec_overflow (i := .sw rs2 rs1 imm), exec_unaligned (i := .sw rs2 rs1 imm),
    exec_outOfBounds_of_outside (i := .sw rs2 rs1 imm)⟩, decodeTableWord_encode (.sw 2#5 1#5 0x004#12)⟩

end Sys2Proof.Machine

/-! ## The loads: LB, LH, LW, LBU and LHU (R140, R141, R143 to R147) -/

namespace Sys2Proof.Machine

/-- A load that passes the three checks writes its value to `x[rd]` and replaces the port (R140). -/
theorem exec_load_of_accessOk {i : Instr} {rd : RegId} {s : State} {v : Word} (hrd : destReg i = some rd)
    (hok : accessOk s (baseReg i) (rawImm i) (widthBytes (width i)))
    (hvalue : loadedValue (width i) (signed i) (baseReg i) (rawImm i) s = v) :
    exec i s = .next { s with
      regs := s.regs.write rd v
      out := loadPort (BitVec.ofNat 3 (widthBytes (width i))) (exactSum s (baseReg i) (rawImm i)) rd v } := by
  rw [exec_of_accessOk hok, succeeded_of_load (isStore_of_destReg hrd), hrd, Option.getD_some, loaded, hvalue]

section Values

variable (sign : Bool) (rs1 : RegId) (imm : Imm12) (s : State)

theorem loadedValue_byte : loadedValue .byte sign rs1 imm s = extended sign (s.mem.read (exactSum s rs1 imm)) :=
  (congrArg (loadAdapter .byte sign) (memRead_one _ _)).trans (loadAdapter_setWidth .byte sign _)

theorem loadedValue_half : loadedValue .half sign rs1 imm s =
    extended sign (s.mem.read (exactSum s rs1 imm + 1) ++ s.mem.read (exactSum s rs1 imm)) :=
  (congrArg (loadAdapter .half sign) (memRead_two _ _)).trans (loadAdapter_setWidth .half sign _)

theorem loadedValue_word : loadedValue .word sign rs1 imm s =
    s.mem.read (exactSum s rs1 imm + 3) ++ s.mem.read (exactSum s rs1 imm + 2) ++ s.mem.read (exactSum s rs1 imm + 1) ++
      s.mem.read (exactSum s rs1 imm) :=
  (loadAdapter_word sign _).trans (memRead_four _ _)

end Values

/-- A zero-extended field is below `2^n` (R146, R147). -/
theorem setWidth_toNat_le {n : Nat} (h : n ≤ 32) (x : BitVec n) : (x.setWidth 32).toNat ≤ 2 ^ n - 1 := by
  rw [BitVec.toNat_setWidth_of_le h]
  exact Nat.le_sub_one_of_lt x.isLt

/-- Settles O21: the width is 1, of which every address is a multiple. -/
theorem loadByteMeaning : Obligations.LoadByteMeaning :=
  ⟨fun rd rs1 imm s => ⟨rfl, rfl, rfl,
    fun hok => exec_load_of_accessOk (i := .lb rd rs1 imm) rfl hok (loadedValue_byte true rs1 imm s),
    exec_overflow (i := .lb rd rs1 imm),
    fun ho hb => exec_outOfBounds (i := .lb rd rs1 imm) ho (Nat.mod_one _) fun ⟨_, _, hin⟩ => hb hin⟩,
    decodeTableWord_encode (.lb 3#5 1#5 0x000#12)⟩

/-- Settles O22: a load of two bytes, extended by the sign, and one lemma for each check in its place. -/
theorem loadHalfMeaning : Obligations.LoadHalfMeaning :=
  ⟨fun rd rs1 imm s => ⟨rfl, rfl, rfl,
    fun hok => exec_load_of_accessOk (i := .lh rd rs1 imm) rfl hok (loadedValue_half true rs1 imm s),
    exec_overflow (i := .lh rd rs1 imm),
    fun ho hm => exec_unaligned (i := .lh rd rs1 imm) ho (Nat.mod_two_ne_zero.2 hm),
    exec_outOfBounds_of_outside (i := .lh rd rs1 imm)⟩, decodeTableWord_encode (.lh 3#5 1#5 0x002#12)⟩

/-- Settles O23: a load of all four bytes, with nothing to extend, and one lemma for each check in its place. -/
theorem loadWordMeaning : Obligations.LoadWordMeaning :=
  ⟨fun rd rs1 imm s => ⟨rfl, rfl, rfl,
    fun hok => exec_load_of_accessOk (i := .lw rd rs1 imm) rfl hok (loadedValue_word false rs1 imm s),
    exec_overflow (i := .lw rd rs1 imm), exec_unaligned (i := .lw rd rs1 imm),
    exec_outOfBounds_of_outside (i := .lw rd rs1 imm)⟩,
    decodeTableWord_encode (.lw 3#5 1#5 0x004#12), decodeTableWord_encode (.lw 1#5 1#5 0x000#12)⟩

/-- Settles O24: LB's transaction, with zeros above the byte. -/
theorem loadByteUnsignedMeaning : Obligations.LoadByteUnsignedMeaning :=
  ⟨fun rd rs1 imm s => ⟨rfl, rfl, rfl,
    fun hok => ⟨setWidth_toNat_le (by decide) _,
      exec_load_of_accessOk (i := .lbu rd rs1 imm) rfl hok (loadedValue_byte false rs1 imm s)⟩,
    exec_overflow (i := .lbu rd rs1 imm),
    fun ho hb => exec_outOfBounds (i := .lbu rd rs1 imm) ho (Nat.mod_one _) fun ⟨_, _, hin⟩ => hb hin⟩,
    decodeTableWord_encode (.lbu 3#5 1#5 0x000#12)⟩

/-- Settles O25: LH's transaction, with zeros above the half-word. -/
theorem loadHalfUnsignedMeaning : Obligations.LoadHalfUnsignedMeaning :=
  ⟨fun rd rs1 imm s => ⟨rfl, rfl, rfl,
    fun hok => ⟨setWidth_toNat_le (by decide) _,
      exec_load_of_accessOk (i := .lhu rd rs1 imm) rfl hok (loadedValue_half false rs1 imm s)⟩,
    exec_overflow (i := .lhu rd rs1 imm),
    fun ho hm => exec_unaligned (i := .lhu rd rs1 imm) ho (Nat.mod_two_ne_zero.2 hm),
    exec_outOfBounds_of_outside (i := .lhu rd rs1 imm)⟩, decodeTableWord_encode (.lhu 3#5 1#5 0x002#12)⟩

/-- What a load's destination decides: none of the checks, and of the next state `loaded` the register written. -/
theorem loadConstructor_dest {mk : RegId → RegId → Imm12 → Instr}
    (hmk : mk ∈ [Instr.lb, Instr.lh, Instr.lw, Instr.lbu, Instr.lhu]) (rs1 : RegId) (imm : Imm12) (s : State) :
    ∃ W sign, ∀ rd, firstFailure (mk rd rs1 imm) s = firstFailure (mk 0#5 rs1 imm) s ∧
      succeeded (mk rd rs1 imm) s = loaded W sign rd rs1 imm s := by
  simp only [List.mem_cons, List.not_mem_nil, or_false] at hmk
  obtain rfl | rfl | rfl | rfl | rfl := hmk
  all_goals exact ⟨_, _, fun _ => ⟨rfl, rfl⟩⟩

/-- Settles O27: the checks do not look at `rd`, and `loaded` writes register 0 to no effect and with no report. -/
theorem loadToRegisterZero : Obligations.LoadToRegisterZero := by
  intro mk hmk rd rs1 imm s
  obtain ⟨W, sign, hdest⟩ := loadConstructor_dest hmk rs1 imm s
  obtain ⟨hcheck, hloaded⟩ := hdest rd
  obtain ⟨-, hloadedZero⟩ := hdest 0#5
  refine ⟨fun f => by rw [exec_eq_fault_iff, exec_eq_fault_iff, hcheck], fun t h => ?_⟩
  obtain ⟨f, hf, -⟩ | ⟨-, -, hzero⟩ := exec_firstFailure (mk 0#5 rs1 imm) s
  · rw [← hcheck, ← exec_eq_fault_iff, h] at hf
    cases hf
  · obtain ⟨-, rfl⟩ := exec_next h
    refine ⟨_, hzero, ?_⟩
    rw [hloaded, hloadedZero]
    exact ⟨rfl, rfl, rfl, rfl, rfl, rfl, rfl, rfl, rfl⟩

end Sys2Proof.Machine

/-! ## Exceptions: the overflow and the alignment fault (R171, R172) -/

namespace Sys2Proof.Machine

/-- The alignment fault of stores (`true`) or of loads (`false`) at an address (R172). -/
def alignmentFault (store : Bool) (a : Word) : Fault := if store then .unalignedWrite a else .unalignedRead a

theorem unaligned_eq_alignmentFault (i : Instr) (a : Word) : unaligned i a = alignmentFault (isStore i) a := rfl

theorem alignmentFault_ne_overflow (st : Bool) (a : Word) : alignmentFault st a ≠ .addressCalculationOverflow := by
  cases st <;> exact nofun

theorem alignmentFault_ne_outOfBounds (st : Bool) (a b : Word) : alignmentFault st a ≠ .outOfBounds b := by
  cases st <;> exact nofun

/-- An alignment fault tells its family and its address. -/
theorem alignmentFault_inj {st st' : Bool} {a b : Word} (h : alignmentFault st a = alignmentFault st' b) :
    st = st' ∧ a = b :=
  match st, st' with
  | false, false => ⟨rfl, Fault.unalignedRead.inj h⟩
  | true, true => ⟨rfl, Fault.unalignedWrite.inj h⟩
  | false, true | true, false => nomatch h

/-- Of the four ways `exec` ends only the adder's carry out gives the overflow. -/
theorem exec_eq_overflow_iff {i : Instr} {s : State} :
    exec i s = .fault .addressCalculationOverflow ↔ addressSpace ≤ exactSum s (baseReg i) (rawImm i) := by
  refine ⟨fun h => ?_, exec_overflow⟩
  obtain ⟨ho, -⟩ | ⟨-, -, e⟩ | ⟨-, -, -, e⟩ | ⟨-, e⟩ := exec_cases i s
  · exact ho
  all_goals rw [e] at h
  · exact absurd (Host.Outcome.fault.inj h) (alignmentFault_ne_overflow (isStore i) _)
  · cases h
  · cases h

/-- Of the four ways `exec` ends only the alignment check's gives a family's alignment fault, which is then the
instruction's own family's at its effective address. -/
theorem exec_eq_alignmentFault_iff {i : Instr} {s : State} {st : Bool} {a : Word} :
    exec i s = .fault (alignmentFault st a) ↔
      isStore i = st ∧ exactSum s (baseReg i) (rawImm i) < addressSpace ∧
        exactSum s (baseReg i) (rawImm i) % widthBytes (width i) ≠ 0 ∧ a.toNat = exactSum s (baseReg i) (rawImm i) := by
  constructor
  · intro h
    obtain ⟨-, e⟩ | ⟨ho, hm, e⟩ | ⟨-, -, -, e⟩ | ⟨-, e⟩ := exec_cases i s <;> rw [e] at h
    · exact absurd (Host.Outcome.fault.inj h).symm (alignmentFault_ne_overflow st a)
    · rw [unaligned_eq_alignmentFault] at h
      obtain ⟨hst, rfl⟩ := alignmentFault_inj (Host.Outcome.fault.inj h)
      exact ⟨hst, ho, hm, sumWord_toNat ho⟩
    · exact absurd (Host.Outcome.fault.inj h).symm (alignmentFault_ne_outOfBounds st a _)
    · cases h
  · rintro ⟨rfl, ho, hm, ha⟩
    obtain rfl : a = sumWord s (baseReg i) (rawImm i) := BitVec.eq_of_toNat_eq (ha.trans (sumWord_toNat ho).symm)
    exact exec_unaligned ho hm

/-- Every address is a multiple of a byte access's width. -/
theorem exec_ne_alignmentFault_of_byte {i : Instr} (hbyte : width i = .byte) (s : State) (st : Bool) (a : Word) :
    exec i s ≠ .fault (alignmentFault st a) := by
  rw [ne_eq, exec_eq_alignmentFault_iff, hbyte]
  rintro ⟨-, -, hm, -⟩
  exact hm (Nat.mod_one _)

/-- Settles O10: only the adder's carry out gives this fault, and its port address is 0. -/
theorem overflowFaultsExactly : Obligations.OverflowFaultsExactly :=
  ⟨fun _ _ => exec_eq_overflow_iff, rfl⟩

/-- Settles O11: the alignment fault of loads, that of stores, and neither for a byte access. -/
theorem misalignmentFaultsExactly : Obligations.MisalignmentFaultsExactly := fun _ s a =>
  ⟨exec_eq_alignmentFault_iff (st := false), exec_eq_alignmentFault_iff (st := true), fun hbyte =>
    ⟨exec_ne_alignmentFault_of_byte hbyte s false a, exec_ne_alignmentFault_of_byte hbyte s true a⟩⟩

end Sys2Proof.Machine

/-! ## Exceptions: the fault on the port, and the idle step (R175, R188) -/

namespace Sys2Proof.Machine

/-- A fault is read back from its code and address. -/
theorem ofCode_code_addr (f : Fault) : Fault.ofCode f.code f.addr = some f := by
  cases f with
  | addressCalculationOverflow | unalignedRead _ | unalignedWrite _ | outOfBounds _ => rfl

/-- Settles O16: the port shows `Fault.code` and `Fault.addr`, from which `Fault.ofCode` reads the fault back. -/
theorem faultCodesOnPort : Obligations.FaultCodesOnPort :=
  ⟨fun _ _ => ⟨rfl, rfl, rfl⟩, fun _ => rfl, rfl, rfl, fun _ => ⟨rfl, rfl⟩, fun _ => ⟨rfl, rfl⟩, fun _ => ⟨rfl, rfl⟩,
    ofCode_code_addr, fun _ => ⟨rfl, rfl, rfl⟩⟩

/-- Settles O48: a step with nothing pending presents nothing. -/
theorem idleKeepsState : Obligations.IdleKeepsState := fun _ => step_of_idle

end Sys2Proof.Machine

/-! ## Reset: the state for each choice of the launch parameters (R200, R203) -/

namespace Sys2Proof.Machine

section Launch

variable (cfg : Config) (regInit : RegFile) (memInit : List (Word × Byte))

@[simp] theorem State.launch_regs : (State.launch cfg regInit memInit).regs = regInit := rfl
@[simp] theorem State.launch_mem : (State.launch cfg regInit memInit).mem = Memory.ofLoader memInit := rfl
@[simp] theorem State.launch_out : (State.launch cfg regInit memInit).out = OutPort.idle := rfl
@[simp] theorem State.launch_cfg : (State.launch cfg regInit memInit).cfg = cfg := rfl
@[simp] theorem State.launch_pending : (State.launch cfg regInit memInit).pending = [] := rfl

end Launch

/-- The loader's last byte is one write into what the bytes before it leave. -/
theorem Memory.ofLoader_concat (image : List (Word × Byte)) (a : Word) (b : Byte) :
    Memory.ofLoader (image ++ [(a, b)]) = (Memory.ofLoader image).write a.toNat b :=
  List.foldl_concat ..

/-- A byte the loader writes stands in memory if no byte goes to an address twice (R49, R203). The induction takes the
loader's last write off: it leaves that byte, and by `Nodup` every other byte went to another address. -/
theorem Memory.read_ofLoader {image : List (Word × Byte)} (hnodup : (image.map Prod.fst).Nodup) {a : Word} {b : Byte}
    (hmem : (a, b) ∈ image) : (Memory.ofLoader image).read a.toNat = b := by
  induction image using List.reverseRecOn with
  | nil => cases hmem
  | append_singleton image c ih =>
    obtain ⟨d, w⟩ := c
    rw [List.map_append, List.map_singleton, ← List.concat_eq_append, List.nodup_concat] at hnodup
    obtain ⟨hd, himage⟩ := hnodup
    rw [Memory.ofLoader_concat]
    obtain hbefore | hlast := List.mem_append.1 hmem
    · have ha : a ∈ image.map Prod.fst := List.mem_map_of_mem hbefore
      have hda : a ≠ d := ne_of_mem_of_not_mem ha hd
      rw [Memory.read_write_ne (mt BitVec.eq_of_toNat_eq hda)]
      exact ih himage hbefore
    · obtain ⟨rfl, rfl⟩ := Prod.mk.inj (List.mem_singleton.1 hlast)
      exact Memory.read_write_same (Memory.wf_ofLoader image) _ _

/-- Settles O37: the parameters stand in the state's fields, the bytes by `Memory.read_ofLoader`, and the port is
`OutPort.idle`. -/
theorem launchStateFollowsParameters : Obligations.LaunchStateFollowsParameters := by
  refine ⟨fun cfg regInit memInit => ⟨RegFile.read_zero _, fun _ _ hi => RegFile.read_of_ne_zero _ hi,
    fun hnodup _ _ hmem => Memory.read_ofLoader hnodup hmem, State.launch_cfg .., State.launch_pending .., ?_⟩,
    Config.default, Config.regInit, Config.memInit, rfl⟩
  rw [State.launch_out]
  simp only [OutPort.idle, and_self]

theorem consistent_idle : OutPort.idle.consistent := by
  simp [OutPort.consistent, OutPort.idle]

/-- Every launch has the invariant, whatever its parameters. -/
theorem launch_inv (cfg : Config) (regInit : RegFile) (memInit : List (Word × Byte)) :
    (State.launch cfg regInit memInit).Inv :=
  ⟨Memory.wf_ofLoader memInit, consistent_idle⟩

/-- Settles O35: the model's reset is a launch. -/
theorem resetMeetsInvariant : Obligations.ResetMeetsInvariant :=
  launch_inv ..

end Sys2Proof.Machine
